-- ==== Sys2Proof/Word.lean ====
section
/-! DEFINITION. The word types of BG128-CORE: what the spec treats as bits, each at its one width
(spec/00_scope.md R5, R6; spec/10_state.md R20). -/

namespace Sys2Proof

/-- A byte of a field's image on the stream medium (spec/20_memory.md R38). -/
abbrev Byte := BitVec 8

/-- The 8-bit command word `CMD` (spec/30_encoding.md R54). -/
abbrev CmdWord := BitVec 8

/-- One 32-bit limb of a value, and one field of the stream (R5 `LIMB_W`, `STREAM_FIELD_W`). -/
abbrev Limb := BitVec 32

/-- A 64-bit scalar operand or result: the fields M, S and Q (R53, R63). -/
abbrev Scalar := BitVec 64

/-- A 128-bit value pattern: the fields A, B and R (R20). -/
abbrev Value := BitVec 128

end Sys2Proof
end

