-- ==== Sys2Proof/Syntax.lean ====
section
/-! DEFINITION. The command as the port carries it, and the instructions it decodes to: one
constructor per row of spec/opcode_table.json, each with exactly the operand fields its row reads
(spec/30_encoding.md R53, R57, R58). -/

namespace Sys2Proof

/-- One command transaction: the command word and the four operand fields, all latched together
(R53). Every command has this one format. -/
structure Command where
  /-- `CMD`: opcode and reserved bits (R54). -/
  word : CmdWord
  /-- `A`: first value operand. -/
  a : Value
  /-- `B`: second value operand. -/
  b : Value
  /-- `M`: signed multiplier of ADDMULT. -/
  m : Scalar
  /-- `S`: scalar input of CVTDV and CVTIV. -/
  s : Scalar
  deriving DecidableEq, Repr

/-- The twelve commands of R57, with the fields each one reads. -/
inductive Instr where
  /-- NEG A (R73). -/
  | neg (a : Value)
  /-- CMP A, B (R76). -/
  | cmp (a b : Value)
  /-- CVTDV S: binary64 to value (R80). -/
  | cvtdv (s : Scalar)
  /-- CVTIV S: signed integer to value (R82). -/
  | cvtiv (s : Scalar)
  /-- CVTVD A: value to binary64 (R83). -/
  | cvtvd (a : Value)
  /-- CVTVI A: value to signed integer (R85). -/
  | cvtvi (a : Value)
  /-- CEIL A (R86). -/
  | ceil (a : Value)
  /-- ADDMULT A, B, M: `A + B·M` (R88). -/
  | addmult (a b : Value) (m : Scalar)
  /-- ADD A, B (R96). -/
  | add (a b : Value)
  /-- SUB A, B (R97). -/
  | sub (a b : Value)
  /-- ENC A: write the value to the stream (R99). -/
  | enc (a : Value)
  /-- DEC: read a value from the stream (R100). -/
  | dec
  deriving DecidableEq, Repr

end Sys2Proof
end

