-- ==== Sys2Proof/Config.lean ====
section
/-! DEFINITION. What is fixed when the block is built (spec/00_scope.md R5). The OPEN parameters are
constants without a body: nothing in Lean can evaluate them, so a theorem about the machine holds for
every choice of them. -/

namespace Sys2Proof

/-- The values of `V2I_ROUND` (R5, R85). -/
inductive V2iRound where
  | trunc
  | floor
  deriving DecidableEq, Repr, Inhabited

/-- The values of `V2I_WIDTH` (R5, R85). -/
inductive V2iWidth where
  | w32
  | w64
  deriving DecidableEq, Repr, Inhabited

/-- The values of `V2D_MODE` (R5, R83, R84). -/
inductive V2dMode where
  | correctRne
  | sequentialRne
  deriving DecidableEq, Repr

namespace Config

/-- `V2I_ROUND`, OPEN (R5, decision D11; log entry 7). -/
opaque v2iRound : V2iRound

/-- `V2I_WIDTH`, OPEN (R5, decision D11; log entry 7). -/
opaque v2iWidth : V2iWidth

/-- `V2D_MODE` of this block (R5, decision D10; log entry 8). -/
def v2dMode : V2dMode := .correctRne

/-- `LAT − 1`: `LAT` is OPEN and at least 1 (R5, R127; log entry 6). -/
opaque latMinusOne : Nat

/-- Edges a command may take beyond its least latency: an implementation may use a different,
data-dependent latency per command (R127; log entry 6). -/
opaque extraEdges : Command → Nat

/-- `LAT`: the least number of rising edges from acceptance to response of a command other than ENC
and DEC (R127). -/
def lat : Nat := latMinusOne + 1

/-- `I2V_MAG_MAX = 2^32 − 1` (R5, R82). -/
def i2vMagMax : Nat := 2 ^ 32 - 1

/-- `STREAM_FIELD_W`: the width of one field of the stream (R5). -/
def streamFieldW : Nat := 32

/-- The number of 32-bit fields of a value on the stream (R5, R39). -/
def nFields : Nat := 4

end Config
end Sys2Proof
end

