-- ==== Sys2Proof/WellFormed.lean ====
section
/-! DEFINITION. Which command words select an operation (spec/30_encoding.md R54, R57, R59, R60).
The operand fields carry any bits (R55, R58), and every `Instr` is well formed by its types, so the
checks are on the command word alone. -/

namespace Sys2Proof

/-- The reserved field `RES = CMD[7:4]` is `0000` (R54, R60). -/
def CmdWord.resClear (w : CmdWord) : Bool :=
  w.extractLsb' 4 4 == 0

/-- The opcode `OP = CMD[3:0]` is one of the twelve of R57, not 0x0, 0xD, 0xE or 0xF (R59). -/
def CmdWord.opAssigned (w : CmdWord) : Bool :=
  let op := w.extractLsb' 0 4
  1 ≤ op.toNat && op.toNat ≤ 12

/-- The command selects an operation: both checks hold, whatever its operand fields. -/
def Command.wellFormed (c : Command) : Bool :=
  CmdWord.resClear c.word && CmdWord.opAssigned c.word

end Sys2Proof
end

