-- ==== Sys2Proof/Decode.lean ====
section
/-! DEFINITION. Decoding and encoding of commands (spec/30_encoding.md R53 to R62), the flat numbering
of a command's bits, and the decoder as the opcode table numbers it. -/

namespace Sys2Proof

/-- Why a command word selects no operation. -/
inductive Reject where
  /-- `RES ≠ 0000` (R60). -/
  | reservedBits
  /-- `RES = 0000` and `OP ∈ {0x0, 0xD, 0xE, 0xF}` (R59). -/
  | reservedOpcode
  deriving DecidableEq, Repr

/-- The opcode map of R57. Selection uses `CMD[7:0]` alone; the reserved bits are checked before the
opcode (R60, R111), and each command takes only the fields its row lists (R58). -/
def decode (c : Command) : Except Reject Instr :=
  if c.word.extractLsb' 4 4 ≠ 0 then .error .reservedBits
  else
    match (c.word.extractLsb' 0 4).toNat with
    | 0x1 => .ok (.neg c.a)
    | 0x2 => .ok (.cmp c.a c.b)
    | 0x3 => .ok (.cvtdv c.s)
    | 0x4 => .ok (.cvtiv c.s)
    | 0x5 => .ok (.cvtvd c.a)
    | 0x6 => .ok (.cvtvi c.a)
    | 0x7 => .ok (.ceil c.a)
    | 0x8 => .ok (.addmult c.a c.b c.m)
    | 0x9 => .ok (.add c.a c.b)
    | 0xA => .ok (.sub c.a c.b)
    | 0xB => .ok (.enc c.a)
    | 0xC => .ok .dec
    | _ => .error .reservedOpcode

/-- The command of an instruction: `CMD` from R57, unused fields zero (R66). -/
def encode : Instr → Command
  | .neg a => ⟨0x01, a, 0, 0, 0⟩
  | .cmp a b => ⟨0x02, a, b, 0, 0⟩
  | .cvtdv s => ⟨0x03, 0, 0, 0, s⟩
  | .cvtiv s => ⟨0x04, 0, 0, 0, s⟩
  | .cvtvd a => ⟨0x05, a, 0, 0, 0⟩
  | .cvtvi a => ⟨0x06, a, 0, 0, 0⟩
  | .ceil a => ⟨0x07, a, 0, 0, 0⟩
  | .addmult a b m => ⟨0x08, a, b, m, 0⟩
  | .add a b => ⟨0x09, a, b, 0, 0⟩
  | .sub a b => ⟨0x0A, a, b, 0, 0⟩
  | .enc a => ⟨0x0B, a, 0, 0, 0⟩
  | .dec => ⟨0x0C, 0, 0, 0, 0⟩

/-- The command uses the stream port: it is an ENC or a DEC (R45, R99). -/
def Instr.usesStream : Instr → Bool
  | .enc _ => true
  | .dec => true
  | .neg _ | .cmp _ _ | .cvtdv _ | .cvtiv _ | .cvtvd _ | .cvtvi _ | .ceil _ => false
  | .addmult _ _ _ | .add _ _ | .sub _ _ => false

/-- The edges a command accepted now waits in BUSY before the edge at which it runs (log entry 6). A
command other than ENC and DEC presents its response at that edge, `LAT` edges after its acceptance
or later; an ENC or DEC starts its stream calls there (R127). -/
def Config.waitEdges (c : Command) : Nat :=
  match decode c with
  | .ok i => if i.usesStream then Config.extraEdges c else Config.latMinusOne + Config.extraEdges c
  | .error _ => Config.latMinusOne + Config.extraEdges c

/-- The 392 bits of a command in the order of R53, `CMD` lowest (log entry 14). -/
def Command.toBits (c : Command) : BitVec 392 :=
  c.s ++ c.m ++ c.b ++ c.a ++ c.word

/-- The command that 392 bits spell, `CMD` lowest (log entry 14). -/
def Command.ofBits (v : BitVec 392) : Command where
  word := v.extractLsb' 0 8
  a := v.extractLsb' 8 128
  b := v.extractLsb' 136 128
  m := v.extractLsb' 264 64
  s := v.extractLsb' 328 64

/-- The command whose lowest `nbits` bits are those of `w`, every bit above them zero, in the numbering
of `Command.ofBits`. -/
def Command.ofTableWord (nbits w : Nat) : Command :=
  let v := w % 2 ^ nbits
  { word := BitVec.ofNat 8 v
    a := BitVec.ofNat 128 (v >>> 8)
    b := BitVec.ofNat 128 (v >>> 136)
    m := BitVec.ofNat 64 (v >>> 264)
    s := BitVec.ofNat 64 (v >>> 328) }

/-- What the decoder reads from a command whose bits are `w`, numbered as spec/opcode_table.json
numbers them: bit 0 is bit 0 of `CMD`. -/
def decodeTableWord (nbits w : Nat) : Option Instr :=
  match decode (.ofTableWord nbits w) with
  | .ok i => some i
  | .error _ => none

end Sys2Proof
end

