-- ==== Sys2Proof/Machine/State.lean ====
section
/-! DEFINITION. The state of the block, of the run, and of the pins around it, as plain data
(spec/10_state.md R32 to R34; spec/70_reset_and_hazards.md R119, R124, R130), and the state after
reset. The block has no register file, program counter, control register, mode or memory
(R27 to R31, R35). -/

namespace Sys2Proof.Machine

/-- The controller's phase (R32). -/
inductive Phase where
  /-- Ready for a command. -/
  | idle
  /-- A command is accepted and executing. -/
  | busy
  /-- A response is presented and not yet taken. -/
  | resp
  deriving DecidableEq, Repr

/-- The state of the one stream call of R124. -/
inductive StreamCall where
  /-- No call: `sq_valid = 0` and no answer is awaited. -/
  | none
  /-- The request is driven, `sq_valid = 1`, and not yet transferred. -/
  | requested
  /-- The request has been transferred and its answer is awaited. -/
  | awaiting
  deriving DecidableEq, Repr

/-- The five fields of a response, as the `rsp_*` outputs carry them (R63, R69). -/
structure Response where
  st : BitVec 2
  cause : BitVec 4
  r : Value
  q : Scalar
  cr : BitVec 2
  deriving DecidableEq, Repr

/-- The 32-bit fields DEC has read so far; the first `k` of them are written (R32). -/
structure ReadBuf where
  ihi : Limb
  ilo : Limb
  fhi : Limb
  flo : Limb
  deriving DecidableEq, Repr

/-- The input pins as one rising edge of `clk` samples them (R68, R69). -/
structure Pins where
  rst : Bool
  cmdValid : Bool
  /-- `cmd_op`, `cmd_a`, `cmd_b`, `cmd_m`, `cmd_s`. -/
  cmd : Command
  rspReady : Bool
  sqReady : Bool
  saValid : Bool
  saOk : Bool
  saRdata : Limb
  deriving DecidableEq, Repr

/-- One completed stream call with its answer (R37, R130). -/
inductive Transfer where
  /-- `StreamWrite(32, v)`, answered `ok` (true) or `fail` (false). -/
  | write (v : Limb) (ok : Bool)
  /-- `StreamRead(32)`, answered with a value or with `fail` (none). -/
  | read (answer : Option Limb)
  deriving DecidableEq, Repr

/-- Everything the spec gives the machine, the result of the run so far, and the model's own three
fields `latency`, `inputs` and `held`. -/
structure State where
  /-- The controller's phase (R32). -/
  phase : Phase
  /-- The latched command, valid in BUSY (R32). -/
  cmd : Command
  /-- The number of stream fields transferred so far by the current ENC or DEC, 0 to 4 (R32). -/
  k : Nat
  /-- The fields DEC has read so far (R32). -/
  buf : ReadBuf
  /-- The latched response, driven on the `rsp_*` outputs; all zero while none is presented (R32, R34). -/
  rsp : Response
  /-- The stream call in progress (R124). -/
  call : StreamCall
  /-- The responses taken so far, oldest first (R130). -/
  responses : List Response
  /-- The stream calls answered so far, oldest first (R130). -/
  transfers : List Transfer
  /-- The model's own: edges left before the latched command runs (R127; log entry 6). -/
  latency : Nat
  /-- The model's own: what the outside drives at the coming edges, the next one first; when it is
  empty the pins are quiet (log entry 2). -/
  inputs : List Pins
  /-- The model's own: the command the host presented at the last edge and must hold stable
  (R122, R129; log entry 9). -/
  held : Option Command
  deriving DecidableEq, Repr

/-- No reason stops the block: every failure of a command is a response (R14, R108, R128), and a wait
for another agent is a step that waits (93 U13, U14). -/
inductive Fault where
  deriving DecidableEq, Repr

/-- Why the model gives a step no meaning. -/
inductive Refusal where
  /-- Raised by an arm of `exec` whose instruction has no meaning yet; no arm is left. Safe: the model
  stops where the hardware goes on. -/
  | notModelled (mnemonic : String)
  /-- Raised by `step` when the host changes or drops the command inputs before the command is
  accepted: the spec gives that no move (R129, 93 U16). Safe: the model stops. -/
  | commandNotHeld
  deriving DecidableEq, Repr

/-- The response outputs while no response is presented: all zero (R34, R119). -/
def Response.none : Response := ⟨0, 0, 0, 0, 0⟩

/-- The machine right after reset (R34, R119): IDLE, `k = 0`, no response, no stream request, and a run
that has done nothing yet (R130). `cmd` and `buf` are unspecified there and never read before they
are written; the zeros are log entries 3 and 4. -/
def State.reset : State where
  phase := .idle
  cmd := ⟨0, 0, 0, 0, 0⟩
  k := 0
  buf := ⟨0, 0, 0, 0⟩
  rsp := Response.none
  call := .none
  responses := []
  transfers := []
  latency := 0
  inputs := []
  held := .none

end Sys2Proof.Machine
end

