-- ==== Sys2Proof/Machine/Flags.lean ====
section
/-! DEFINITION. Status, cause and compare codes and the responses built from them
(spec/30_encoding.md R63 to R65; spec/60_exceptions.md R103, R110, R112). The block has no flags
register: each response carries its own ST, CAUSE and CR (R29). -/

namespace Sys2Proof.Machine

/-- The error causes of R110, in the order of their codes 0x1 to 0xF. -/
inductive Cause where
  | negRsv
  | d2vRange
  | d2vNan
  | i2vRange
  | ceilOvf
  | amMmin
  | amSplit
  | amLow
  | amHigh
  | amRsv
  | v2iRange
  | ioWr
  | ioRd
  | illOp
  | illRes
  deriving DecidableEq, Repr

/-- The outcome of a comparison (R75). -/
inductive CmpResult where
  | less
  | equal
  | greater
  deriving DecidableEq, Repr

/-- The CAUSE code of an error (R110). -/
def Cause.code : Cause → BitVec 4
  | .negRsv => 0x1
  | .d2vRange => 0x2
  | .d2vNan => 0x3
  | .i2vRange => 0x4
  | .ceilOvf => 0x5
  | .amMmin => 0x6
  | .amSplit => 0x7
  | .amLow => 0x8
  | .amHigh => 0x9
  | .amRsv => 0xA
  | .v2iRange => 0xB
  | .ioWr => 0xC
  | .ioRd => 0xD
  | .illOp => 0xE
  | .illRes => 0xF

/-- The ST code of an error: OVF, IOERR or ILL (R64, R103, R110). -/
def Cause.status : Cause → BitVec 2
  | .negRsv | .d2vRange | .d2vNan | .i2vRange | .ceilOvf | .amMmin | .amSplit | .amLow => 0b01
  | .amHigh | .amRsv | .v2iRange => 0b01
  | .ioWr | .ioRd => 0b10
  | .illOp | .illRes => 0b11

/-- The cause with which a command word that selects no operation is answered (R59, R60). -/
def rejectCause : Reject → Cause
  | .reservedBits => .illRes
  | .reservedOpcode => .illOp

/-- The CR code of a comparison: two's complement −1, 0 or +1 (R65). -/
def CmpResult.code : CmpResult → BitVec 2
  | .less => 0b11
  | .equal => 0b00
  | .greater => 0b01

/-- The comparison with its operands exchanged (R78). -/
def CmpResult.swap : CmpResult → CmpResult
  | .less => .greater
  | .equal => .equal
  | .greater => .less

/-! ## Responses: a field a command does not write is zero (R63) -/

/-- `respond(R = r)`. -/
def Response.okR (r : Value) : Response := ⟨0, 0, r, 0, 0⟩

/-- `respond(Q = q)`. -/
def Response.okQ (q : Scalar) : Response := ⟨0, 0, 0, q, 0⟩

/-- `respond(CR = c)`. -/
def Response.okCr (c : BitVec 2) : Response := ⟨0, 0, 0, 0, c⟩

/-- `respond()`. -/
def Response.okNothing : Response := ⟨0, 0, 0, 0, 0⟩

/-- `raise …(cause)`: everything but ST and CAUSE is zero (R112). -/
def Response.error (c : Cause) : Response := ⟨c.status, c.code, 0, 0, 0⟩

/-- The response of a computation that yields R or an error. -/
def Response.ofR : Except Cause Value → Response
  | .ok r => .okR r
  | .error c => .error c

/-- The response of a computation that yields Q or an error. -/
def Response.ofQ : Except Cause Scalar → Response
  | .ok q => .okQ q
  | .error c => .error c

/-! ## The host's reading of a response -/

/-- `v := OP …` on a value variable: the host writes R into `v` only when `ST = OK` and otherwise keeps
`v` unchanged (R67, R112). -/
def Response.assignR (rsp : Response) (v : Value) : Value := if rsp.st = 0 then rsp.r else v

/-- `v := OP …` on a scalar variable (R67, R112). -/
def Response.assignQ (rsp : Response) (v : Scalar) : Scalar := if rsp.st = 0 then rsp.q else v

/-- `v := CMP …` on a compare variable (R67, R112). -/
def Response.assignCr (rsp : Response) (v : BitVec 2) : BitVec 2 := if rsp.st = 0 then rsp.cr else v

end Sys2Proof.Machine
end

