-- ==== Sys2Proof/Machine/Operands.lean ====
section
/-! DEFINITION. The operand forms: the limbs and the constants of the value format
(spec/10_state.md R20 to R25), the fields of the stream image (spec/20_memory.md R38 to R40), the
binary64 layout and its rounding (R42; spec/00_scope.md R10). -/

namespace Sys2Proof.Machine

/-! ## The value format -/

/-- `P.ihi = P[127:96]` (R9, R20). -/
def ihi (p : Value) : Limb := p.extractLsb' 96 32

/-- `P.ilo = P[95:64]` (R9, R20). -/
def ilo (p : Value) : Limb := p.extractLsb' 64 32

/-- `P.fhi = P[63:32]` (R9, R20). -/
def fhi (p : Value) : Limb := p.extractLsb' 32 32

/-- `P.flo = P[31:0]` (R9, R20). -/
def flo (p : Value) : Limb := p.extractLsb' 0 32

/-- `limbs(ihi, ilo, fhi, flo)`: the pattern of four limbs (R9). -/
def limbs (hi lo fh fl : Limb) : Value := hi ++ lo ++ fh ++ fl

/-- `sign(P) = P[127]` (R22). -/
def sign (p : Value) : Bool := p.msb

/-- `val(P) = sint_128(P) / 2^64` (R21). -/
def val (p : Value) : ℚ := (p.toInt : ℚ) / 2 ^ 64

/-- MIN (R23). -/
def valueMin : Value := 0x80000000000000000000000000000001#128

/-- MAX (R23). -/
def valueMax : Value := 0x7fffffffffffffffffffffffffffffff#128

/-- ZERO (R23). -/
def valueZero : Value := 0#128

/-- ONE (R23). -/
def valueOne : Value := 0x00000000000000010000000000000000#128

/-- RSV, the reserved pattern (R24). -/
def rsv : Value := 0x80000000000000000000000000000000#128

/-- Representable: every pattern but RSV (R13, R25). -/
def representable (p : Value) : Bool := p != rsv

/-! ## The stream image -/

/-- The field number `k` of a value on the stream, in the order `ihi, ilo, fhi, flo` (R39). -/
def fieldOf (p : Value) (k : Nat) : Limb :=
  match k with
  | 0 => ihi p
  | 1 => ilo p
  | 2 => fhi p
  | _ => flo p

/-- The four bytes of a field on the medium, most significant first (R38). -/
def fieldBytes (v : Limb) : List Byte :=
  [v.extractLsb' 24 8, v.extractLsb' 16 8, v.extractLsb' 8 8, v.extractLsb' 0 8]

/-- The canonical 16-byte image of a value (R39): its four fields in order, without padding. -/
def image (p : Value) : List Byte :=
  fieldBytes (ihi p) ++ fieldBytes (ilo p) ++ fieldBytes (fhi p) ++ fieldBytes (flo p)

/-! ## Binary64 -/

/-- What a binary64 pattern encodes (R42). A finite magnitude is counted exactly in units of `2^-1074`,
the value of the least subnormal (log entry 16). -/
inductive Dbl where
  | nan
  | inf (neg : Bool)
  | finite (neg : Bool) (units : Nat)
  deriving DecidableEq, Repr

/-- The number 1 in units of `2^-1074`. -/
def dblOne : Nat := 2 ^ 1074

/-- `dbl(v)`: sign `v[63]`, biased exponent `v[62:52]`, fraction `v[51:0]` (R42). For `0 < e < 2047` the
magnitude `(1 + f/2^52)·2^(e−1023)` is `(2^52 + f)·2^(e−1)` units; for `e = 0` it is `f` units. -/
def dbl (v : Scalar) : Dbl :=
  let neg := v.msb
  let e := (v.extractLsb' 52 11).toNat
  let f := (v.extractLsb' 0 52).toNat
  if e = 2047 then (if f = 0 then .inf neg else .nan)
  else if e = 0 then .finite neg f
  else .finite neg ((2 ^ 52 + f) * 2 ^ (e - 1))

/-- `RNE64` (R10) of the rational `n / 2^64`, in units of `2^-64`: the nearest number of at most 53
significant bits, ties to the even significand. No operand of the block is below `2^-64` or above
`2^64`, so neither a subnormal nor infinity can result. -/
def rne64 (n : Nat) : Nat :=
  if n < 2 ^ 53 then n
  else
    let sh := n.log2 - 52
    let sig := n / 2 ^ sh
    let rest := n % 2 ^ sh
    let half := 2 ^ (sh - 1)
    if half < rest ∨ (rest = half ∧ sig % 2 = 1) then (sig + 1) * 2 ^ sh else sig * 2 ^ sh

/-- `bits64(±n / 2^64)` for an `n` that `rne64` returns (R10, R42): the leading one of `n` at bit `l`
stands for `2^(l−64)`, so the biased exponent is `l − 64 + 1023`. -/
def bits64 (neg : Bool) (n : Nat) : Scalar :=
  let s := if neg then 2 ^ 63 else 0
  if n = 0 then BitVec.ofNat 64 s
  else
    let l := n.log2
    BitVec.ofNat 64 (s + (l + 959) * 2 ^ 52 + (n * 2 ^ 52 / 2 ^ l - 2 ^ 52))

end Sys2Proof.Machine
end

