-- ==== Sys2Proof/Machine/Ops.lean ====
section
/-! DEFINITION. The named operations on the state: the pins, the reset, command and response
handshakes (spec/70_reset_and_hazards.md R119 to R123), the answering of a command with a success or
an error (spec/60_exceptions.md R112; the block has no trap, so this is all that an error does, R108),
and one edge of a stream call (R124). -/

namespace Sys2Proof.Machine

/-! ## Pins -/

/-- Pins at which no agent does anything. -/
def Pins.quiet : Pins := ⟨false, false, ⟨0, 0, 0, 0, 0⟩, false, false, false, false, 0⟩

/-- The pins that the coming edge samples (log entry 2). -/
def State.pins (s : State) : Pins := s.inputs.headD Pins.quiet

/-- `cmd_ready = 1` exactly when `phase = IDLE` and `rst = 0` (R122). -/
def State.cmdReady (s : State) : Bool := s.phase == .idle && !s.pins.rst

/-- `rsp_valid = 1` exactly while a response is presented (R123). -/
def State.rspValid (s : State) : Bool := s.phase == .resp

/-- `sq_width`: always 32, whether or not a request is driven (R68). -/
def sqWidth : BitVec 6 := BitVec.ofNat 6 Config.streamFieldW

/-- What a stream request carries beside its width (R68). -/
structure SqRequest where
  /-- `sq_write`: 1 for a write. -/
  write : Bool
  /-- `sq_wdata`, given for a write only (log entry 19). -/
  wdata : Option Limb
  deriving DecidableEq, Repr

/-- The primitive a stream call performs (R37). -/
inductive Primitive where
  /-- `StreamWrite(32, v)`. -/
  | write (v : Limb)
  /-- `StreamRead(32)`. -/
  | read
  deriving DecidableEq, Repr

/-- The request of a primitive (R37, R68). -/
def Primitive.request : Primitive → SqRequest
  | .write v => ⟨true, some v⟩
  | .read => ⟨false, none⟩

/-- The primitive that an instruction calls for its field number `k`: only ENC and DEC call one (R45,
R99, R100). -/
def primitiveOf (i : Instr) (k : Nat) : Option Primitive :=
  match i with
  | .enc a => some (.write (fieldOf a k))
  | .dec => some .read
  | .neg _ | .cmp _ _ | .cvtdv _ | .cvtiv _ | .cvtvd _ | .cvtvi _ | .ceil _ => none
  | .addmult _ _ _ | .add _ _ | .sub _ _ => none

/-- The next primitive of the latched command, if it is an ENC or a DEC (R99, R100). -/
def State.nextPrimitive (s : State) : Option Primitive :=
  match decode s.cmd with
  | .ok i => primitiveOf i s.k
  | .error _ => none

/-- The pending request: `none` is `sq_valid = 0`. It is driven only in BUSY of an ENC or DEC with a
request pending (R124). -/
def State.sqRequest (s : State) : Option SqRequest :=
  match s.phase, s.call with
  | .busy, .requested => s.nextPrimitive.map Primitive.request
  | _, _ => none

/-- The output pins (R69). -/
structure Outputs where
  cmdReady : Bool
  rspValid : Bool
  rsp : Response
  sqValid : Bool
  sqWidth : BitVec 6
  /-- `sq_write`, given while `sq_valid = 1` (log entry 19). -/
  sqWrite : Option Bool
  /-- `sq_wdata`, given while `sq_valid = 1` and `sq_write = 1` (log entry 19). -/
  sqWdata : Option Limb
  deriving DecidableEq, Repr

/-- The output pins before the coming edge (R69). -/
def State.outputs (s : State) : Outputs where
  cmdReady := s.cmdReady
  rspValid := s.rspValid
  rsp := s.rsp
  sqValid := s.sqRequest.isSome
  sqWidth := sqWidth
  sqWrite := s.sqRequest.map SqRequest.write
  sqWdata := s.sqRequest.bind SqRequest.wdata

/-! ## Reset, command and response -/

/-- A rising edge with `rst = 1` (R119): IDLE, `k = 0`, no response, no stream request. A command in
flight is abandoned; the transfers it has made stay made (R120). -/
def State.resetEdge (s : State) : State :=
  { s with phase := .idle, k := 0, rsp := Response.none, call := .none, latency := 0 }

/-- A command is accepted: all its fields are latched and `phase <- BUSY` (R122). No stream field of
it has been transferred (R32). -/
def State.accept (s : State) (c : Command) : State :=
  { s with phase := .busy, cmd := c, k := 0, call := .none, latency := Config.waitEdges c }

/-- The command completes: `phase <- RESP` and its response is presented (R123). -/
def State.present (s : State) (r : Response) : State := { s with phase := .resp, rsp := r }

/-- The response is taken: `phase <- IDLE`, the response outputs return to zero (R123), and the run's
result grows by it (R130). -/
def State.take (s : State) : State :=
  { s with phase := .idle, rsp := Response.none, responses := s.responses ++ [s.rsp] }

/-- One more edge of the open latency has passed (R127). -/
def State.waitEdge (s : State) (left : Nat) : State := { s with latency := left }

/-- The host breaks its duty to hold the command inputs: the command it presented at the last edge was
not accepted, and at this edge it is not presented unchanged (R122, R129, 93 U16). -/
def State.holdBroken (s : State) : Bool :=
  match s.held with
  | none => false
  | some c => !(s.pins.cmdValid && s.pins.cmd == c)

/-- The command the host must present again at the next edge: one presented now and not accepted
(R122). -/
def State.holdNext (s : State) : Option Command :=
  if s.pins.cmdValid && !s.cmdReady then some s.pins.cmd else none

/-- The edge is over: `t` is the state the edge of `s` leads to, its pins are past, and the hold duty
is the one that `s` and its pins give. -/
def State.endEdge (s t : State) : State :=
  { t with inputs := s.inputs.tail, held := s.holdNext }

/-! ## One edge of a stream call (R124) -/

/-- What one edge does to a stream call. -/
inductive CallEdge where
  /-- The call goes on. -/
  | pending (s : State)
  /-- The collaborator has answered: a success with the data it drives, or `fail`. -/
  | answered (answer : Option Limb) (s : State)

/-- The record of an answered call (R130). -/
def Primitive.transfer (p : Primitive) (answer : Option Limb) : Transfer :=
  match p with
  | .write v => .write v answer.isSome
  | .read => .read answer

/-- The answer the pins carry: `sa_ok` and, for a success, `sa_rdata` (R68). A write's caller reads no
data. -/
def Pins.answer (p : Pins) : Option Limb := if p.saOk then some p.saRdata else none

/-- One edge of a primitive call: first the request is raised; it is held until an edge with
`sq_ready = 1` transfers it; the call completes at the first later edge with `sa_valid = 1`. An answer
at any other edge is ignored (R124). -/
def streamCall (p : Primitive) (s : State) : CallEdge :=
  match s.call with
  | .none => .pending { s with call := .requested }
  | .requested => .pending (if s.pins.sqReady then { s with call := .awaiting } else s)
  | .awaiting =>
    if s.pins.saValid then
      .answered s.pins.answer
        { s with call := .none, transfers := s.transfers ++ [p.transfer s.pins.answer] }
    else .pending s

/-- One more field has been written (R32, R99). -/
def State.countField (s : State) : State := { s with k := s.k + 1 }

/-- Field number `k` of DEC's buffer is written (R32, R100). -/
def ReadBuf.put (b : ReadBuf) (k : Nat) (v : Limb) : ReadBuf :=
  match k with
  | 0 => { b with ihi := v }
  | 1 => { b with ilo := v }
  | 2 => { b with fhi := v }
  | 3 => { b with flo := v }
  | _ => b

/-- One more field has been read into the buffer (R32, R100). -/
def State.gatherField (s : State) (v : Limb) : State :=
  { s with k := s.k + 1, buf := s.buf.put s.k v }

/-- The value DEC's buffer spells (R100). -/
def ReadBuf.value (b : ReadBuf) : Value := limbs b.ihi b.ilo b.fhi b.flo

/-! ## The medium, as the transfers have written it -/

/-- The bytes that the successful writes among some transfers put on the medium (R38, R44). What a
failed write leaves there is the collaborator's and is not part of it (93 U10). -/
def writtenBytes : List Transfer → List Byte
  | [] => []
  | .write v true :: rest => fieldBytes v ++ writtenBytes rest
  | .write _ false :: rest => writtenBytes rest
  | .read _ :: rest => writtenBytes rest

end Sys2Proof.Machine
end

