-- ==== Sys2Proof/Machine/Negate.lean ====
section
/-! DEFINITION. The negation helper and NEG (spec/40_negate.md R70 to R74). -/

namespace Sys2Proof.Machine

/-- One limb of the increment of R70: a carry-in is absorbed unless the limb is `0xffffffff`. -/
def incLimb (l : Limb) (carry : Bool) : Limb × Bool :=
  if carry then (if l = 0xffffffff then (0, true) else (l + 1, false)) else (l, false)

/-- The increment of R70 over four complemented limbs, `flo → fhi → ilo → ihi`: it fails when the carry
meets `ihi = 0x7fffffff` (R71), and a carry out of `ihi` is discarded. -/
def incrementLimbs (l3 l2 l1 l0 : Limb) : Except Cause Value :=
  let r0 := incLimb l0 true
  let r1 := incLimb l1 r0.2
  let r2 := incLimb l2 r1.2
  if r2.2 then
    if l3 = 0x7fffffff then .error .negRsv else .ok (limbs (l3 + 1) r2.1 r1.1 r0.1)
  else .ok (limbs l3 r2.1 r1.1 r0.1)

/-- The negation helper `Neg(P)` (R70): every limb is subtracted from `0xffffffff`, then the whole is
incremented. -/
def negate (p : Value) : Except Cause Value :=
  incrementLimbs (0xffffffff - ihi p) (0xffffffff - ilo p) (0xffffffff - fhi p) (0xffffffff - flo p)

/-- NEG (R73). -/
def execNeg (a : Value) (s : State) : Host.Outcome State Fault Refusal :=
  .next (s.present (.ofR (negate a)))

end Sys2Proof.Machine
end

