-- ==== Sys2Proof/Machine/Accumulate.lean ====
section
/-! DEFINITION. The scaled-accumulate engine ADDMULT (spec/44_addmult.md R88 to R95), and ADD and SUB
on it (spec/45_addsub.md R96, R97). Multipliers, products and carries are exact integers; R95 bounds
them to a signed 64-bit accumulator. -/

namespace Sys2Proof.Machine

/-- `Canon(y, m)` (R89): a negative `y` is negated and the sign of `m` flipped; the most-negative `m`
fails whatever `y` is, after `y`'s own failure. -/
def canon (y : Value) (m : Int) : Except Cause (Value × Int) :=
  if sign y then
    (negate y).bind fun y' => if m = -2 ^ 63 then .error .amMmin else .ok (y', -m)
  else if m = -2 ^ 63 then .error .amMmin
  else .ok (y, m)

/-- `Split(m)` (R90): `m = mhi·2^32 + mlo` with `mlo` the signed reading of the low 32 bits. -/
def splitMult (m : Int) : Except Cause (Int × Int) :=
  let mlo := (BitVec.ofInt 32 m).toInt
  let mhi := (m - mlo) / 2 ^ 32
  if mhi < -2 ^ 31 ∨ 2 ^ 31 - 1 < mhi then .error .amSplit else .ok (mhi, mlo)

/-- The accumulator value `t` of one limb step (R91). -/
def stepSum (xl : Limb) (p c : Int) : Int := xl.toNat + p + c

/-- `Step(xl, p, c)` (R91): the new limb is the low 32 bits of `t`, and the carry is what remains of
`t` without them, divided by `2^32`. -/
def limbStep (xl : Limb) (p c : Int) : Limb × Int :=
  let t := stepSum xl p c
  let xl' := BitVec.ofInt 32 t
  (xl', (t - xl'.toNat) / 2 ^ 32)

/-- A sign bit as a number. -/
def signInt (p : Value) : Int := if sign p then 1 else 0

/-- `SignOK(sb, sa, C)` (R91, as corrected by 90_conflicts C2): the leftover carry is the change of the
sign. -/
def signOk (before after : Value) (c : Int) : Bool := c == signInt before - signInt after

/-- `LowPass(x, y, mlo)` (R92): `flo, fhi, ilo, ihi`, then the sign check. -/
def lowPass (x y : Value) (mlo : Int) : Except Cause Value :=
  let r0 := limbStep (flo x) (mlo * (flo y).toNat) 0
  let r1 := limbStep (fhi x) (mlo * (fhi y).toNat) r0.2
  let r2 := limbStep (ilo x) (mlo * (ilo y).toNat) r1.2
  let r3 := limbStep (ihi x) (mlo * (ihi y).toNat) r2.2
  let x' := limbs r3.1 r2.1 r1.1 r0.1
  if signOk x x' r3.2 then .ok x' else .error .amLow

/-- `HighPass(x, y, mhi)` (R93): one limb position higher; the product `mhi·y.ihi` belongs to the
leftover carry (decision D13). -/
def highPass (x y : Value) (mhi : Int) : Except Cause Value :=
  let r1 := limbStep (fhi x) (mhi * (flo y).toNat) 0
  let r2 := limbStep (ilo x) (mhi * (fhi y).toNat) r1.2
  let r3 := limbStep (ihi x) (mhi * (ilo y).toNat) r2.2
  let x' := limbs r3.1 r2.1 r1.1 (flo x)
  if signOk x x' (r3.2 + mhi * (ihi y).toNat) then .ok x' else .error .amHigh

/-- The final range check (R94): a result equal to RSV fails. -/
def checkNotRsv (x : Value) : Except Cause Value := if x = rsv then .error .amRsv else .ok x

/-- The engine `x + y·m` (R88): the checks are made in this order, and the first that fails ends the
command (R111). -/
def scaledAccumulate (x y : Value) (m : Int) : Except Cause Value :=
  (canon y m).bind fun ym =>
    (splitMult ym.2).bind fun parts =>
      (lowPass x ym.1 parts.2).bind fun x1 =>
        (highPass x1 ym.1 parts.1).bind checkNotRsv

/-- ADDMULT (R88), with `m = sint_64(M)` (R56). -/
def execAddmult (a b : Value) (m : Scalar) (s : State) : Host.Outcome State Fault Refusal :=
  .next (s.present (.ofR (scaledAccumulate a b m.toInt)))

/-- ADD's computation: ADDMULT with `m = 1` (R96). -/
def addValues (x y : Value) : Except Cause Value := scaledAccumulate x y 1

/-- ADD (R96). -/
def execAdd (a b : Value) (s : State) : Host.Outcome State Fault Refusal :=
  .next (s.present (.ofR (addValues a b)))

/-- SUB's computation: a local copy of `y` is negated, then added (R97). -/
def subValues (x y : Value) : Except Cause Value :=
  (negate y).bind fun yn => addValues x yn

/-- SUB (R97). -/
def execSub (a b : Value) (s : State) : Host.Outcome State Fault Refusal :=
  .next (s.present (.ofR (subValues a b)))

end Sys2Proof.Machine
end

