-- ==== Sys2Proof/Machine/Compare.lean ====
section
/-! DEFINITION. The comparator and CMP (spec/41_compare.md R75, R76). -/

namespace Sys2Proof.Machine

/-- The first differing limb decides, as unsigned numbers (R75). -/
def compareLimbs : List (Limb × Limb) → CmpResult
  | [] => .equal
  | (p, q) :: rest =>
    if p.toNat < q.toNat then .less
    else if q.toNat < p.toNat then .greater
    else compareLimbs rest

/-- `Compare(X, Y)` (R75): the sign bits first, then the limbs in the order `ihi, ilo, fhi, flo`. -/
def compareValues (x y : Value) : CmpResult :=
  if sign x && !sign y then .less
  else if !sign x && sign y then .greater
  else compareLimbs [(ihi x, ihi y), (ilo x, ilo y), (fhi x, fhi y), (flo x, flo y)]

/-- CMP (R76). -/
def execCmp (a b : Value) (s : State) : Host.Outcome State Fault Refusal :=
  .next (s.present (.okCr (compareValues a b).code))

end Sys2Proof.Machine
end

