-- ==== Sys2Proof/Machine/Convert.lean ====
section
/-! DEFINITION. The conversions CVTDV, CVTIV, CVTVD and CVTVI (spec/42_convert.md R79 to R85). None of
them saturates: an out-of-range input is an error. -/

namespace Sys2Proof.Machine

/-- The greedy decomposition of R80 for a magnitude `a` counted in units of `2^-1074`: each limb is the
integer part at its weight, and is subtracted before the next. -/
def magnitudeLimbs (a : Nat) : Value :=
  let hi := a / (dblOne * 2 ^ 32)
  let a := a - hi * (dblOne * 2 ^ 32)
  let lo := a / dblOne
  let a := a - lo * dblOne
  let fh := a * 2 ^ 32 / dblOne
  let a := a - fh * dblOne / 2 ^ 32
  let fl := a * 2 ^ 64 / dblOne
  limbs (BitVec.ofNat 32 hi) (BitVec.ofNat 32 lo) (BitVec.ofNat 32 fh) (BitVec.ofNat 32 fl)

/-- CVTDV's computation (R80): NaN is checked first, then the range `a / 2^32 < 2^31`, infinities
included; then the magnitude is decomposed and negated if the sign bit of `S` is set. -/
def doubleToValue (s : Scalar) : Except Cause Value :=
  match dbl s with
  | .nan => .error .d2vNan
  | .inf _ => .error .d2vRange
  | .finite neg a =>
    if dblOne * 2 ^ 63 ≤ a then .error .d2vRange
    else if neg then negate (magnitudeLimbs a) else .ok (magnitudeLimbs a)

/-- CVTDV (R80). -/
def execCvtdv (s : Scalar) (st : State) : Host.Outcome State Fault Refusal :=
  .next (st.present (.ofR (doubleToValue s)))

/-- CVTIV's computation (R82): the absolute value is formed exactly, so `−2^63` does not wrap. -/
def intToValue (s : Scalar) : Except Cause Value :=
  let i := s.toInt
  let a := i.natAbs
  if Config.i2vMagMax < a then .error .i2vRange
  else
    let r := limbs 0 (BitVec.ofNat 32 a) 0 0
    if i < 0 then negate r else .ok r

/-- CVTIV (R82). -/
def execCvtiv (s : Scalar) (st : State) : Host.Outcome State Fault Refusal :=
  .next (st.present (.ofR (intToValue s)))

/-- The magnitude of a negative operand is its negation (R83, R85): the helper's failure on RSV is
never skipped. -/
def magnitude (a : Value) : Except Cause Value :=
  if sign a then negate a else .ok a

/-- The rounded magnitude of CVTVD in units of `2^-64`, for each mode of `V2D_MODE` (R83, R84): one
rounding of the exact sum, or one after each addition. -/
def roundMagnitude (mode : V2dMode) (p : Value) : Nat :=
  match mode with
  | .correctRne =>
    rne64 ((ihi p).toNat * 2 ^ 96 + (ilo p).toNat * 2 ^ 64 + (fhi p).toNat * 2 ^ 32 + (flo p).toNat)
  | .sequentialRne =>
    let f := rne64 ((ihi p).toNat * 2 ^ 96 + (ilo p).toNat * 2 ^ 64)
    let f := rne64 (f + (fhi p).toNat * 2 ^ 32)
    rne64 (f + (flo p).toNat)

/-- CVTVD's computation (R83), with the rounding mode as its argument (R84). -/
def valueToDouble (mode : V2dMode) (a : Value) : Except Cause Scalar :=
  (magnitude a).bind fun p => .ok (bits64 (sign a) (roundMagnitude mode p))

/-- CVTVD (R83), in this block's mode. -/
def execCvtvd (a : Value) (s : State) : Host.Outcome State Fault Refusal :=
  .next (s.present (.ofQ (valueToDouble Config.v2dMode a)))

/-- `val(A)` rounded to an integer: toward zero, or toward −∞ (R85). -/
def roundToInt (round : V2iRound) (a : Value) : Int :=
  match round with
  | .trunc => a.toInt.tdiv (2 ^ 64)
  | .floor => a.toInt.fdiv (2 ^ 64)

/-- The number of bits of `V2I_WIDTH` (R5). -/
def widthBits : V2iWidth → Nat
  | .w32 => 32
  | .w64 => 64

/-- CVTVI's computation (R85), with the OPEN parameters as its arguments. -/
def valueToInt (round : V2iRound) (width : V2iWidth) (a : Value) : Except Cause Scalar :=
  if a = rsv then .error .negRsv
  else
    let n := roundToInt round a
    let half : Int := 2 ^ (widthBits width - 1)
    if n < -half ∨ half - 1 < n then .error .v2iRange else .ok (BitVec.ofInt 64 n)

/-- CVTVI (R85), with the block's parameters. -/
def execCvtvi (a : Value) (s : State) : Host.Outcome State Fault Refusal :=
  .next (s.present (.ofQ (valueToInt Config.v2iRound Config.v2iWidth a)))

end Sys2Proof.Machine
end

