-- ==== Sys2Proof/Machine/Round.lean ====
section
/-! DEFINITION. CEIL (spec/43_ceil.md R86). -/

namespace Sys2Proof.Machine

/-- CEIL's computation (R86): a non-zero fraction is cleared and `ilo` incremented; a wrap of `ilo`
increments `ihi`, which fails at `0x7fffffff`. -/
def ceiling (a : Value) : Except Cause Value :=
  if fhi a ≠ 0 ∨ flo a ≠ 0 then
    let lo := ilo a + 1
    if lo = 0 then
      if ihi a = 0x7fffffff then .error .ceilOvf else .ok (limbs (ihi a + 1) lo 0 0)
    else .ok (limbs (ihi a) lo 0 0)
  else .ok (limbs (ihi a) (ilo a) (fhi a) (flo a))

/-- CEIL (R86). -/
def execCeil (a : Value) (s : State) : Host.Outcome State Fault Refusal :=
  .next (s.present (.ofR (ceiling a)))

end Sys2Proof.Machine
end

