-- ==== Sys2Proof/Machine/Stream.lean ====
section
/-! DEFINITION. The serializer and deserializer ENC and DEC (spec/46_serdes.md R99, R100). Each edge of
such a command is one edge of its current stream call (spec/70_reset_and_hazards.md R124), so that a
reset can abandon it after any number of fields (R120) and a silent collaborator leaves it BUSY (R128). -/

namespace Sys2Proof.Machine

/-- One edge of ENC (R99): the four fields of `a` are written in order, one call at a time; the first
`fail` ends the command with IO_WR, the fourth `ok` with success. -/
def execEnc (a : Value) (s : State) : Host.Outcome State Fault Refusal :=
  match streamCall (.write (fieldOf a s.k)) s with
  | .pending t => .next t
  | .answered none t => .next (t.present (.error .ioWr))
  | .answered (some _) t =>
    if t.k + 1 < Config.nFields then .next t.countField
    else .next (t.countField.present .okNothing)

/-- One edge of DEC (R100): four fields are read in order into the buffer, one call at a time; the
first `fail` ends the command with IO_RD, the fourth value with the pattern the buffer spells. -/
def execDec (s : State) : Host.Outcome State Fault Refusal :=
  match streamCall .read s with
  | .pending t => .next t
  | .answered none t => .next (t.present (.error .ioRd))
  | .answered (some v) t =>
    if t.k + 1 < Config.nFields then .next (t.gatherField v)
    else .next ((t.gatherField v).present (.okR (t.gatherField v).buf.value))

end Sys2Proof.Machine
end

