-- ==== Sys2Proof/Machine/Dispatch.lean ====
section
/-! DEFINITION. The meaning of each instruction, one arm per constructor. -/

namespace Sys2Proof.Machine

def exec (i : Instr) (s : State) : Host.Outcome State Fault Refusal :=
  match i with
  | .neg a => Sys2Proof.Machine.execNeg a s
  | .cmp a b => Sys2Proof.Machine.execCmp a b s
  | .cvtdv x => Sys2Proof.Machine.execCvtdv x s
  | .cvtiv x => Sys2Proof.Machine.execCvtiv x s
  | .cvtvd a => Sys2Proof.Machine.execCvtvd a s
  | .cvtvi a => Sys2Proof.Machine.execCvtvi a s
  | .ceil a => Sys2Proof.Machine.execCeil a s
  | .addmult a b m => Sys2Proof.Machine.execAddmult a b m s
  | .add a b => Sys2Proof.Machine.execAdd a b s
  | .sub a b => Sys2Proof.Machine.execSub a b s
  | .enc a => Sys2Proof.Machine.execEnc a s
  | .dec => Sys2Proof.Machine.execDec s

end Sys2Proof.Machine
end

