-- ==== Sys2Proof/Machine/Step.lean ====
section
/-! DEFINITION. One rising edge of `clk` (spec/70_reset_and_hazards.md R119 to R124, R127), and the
placing of a command where the next edge runs it. -/

namespace Sys2Proof.Machine

/-- What the latched command does at an edge in BUSY: it waits out its latency (R127), then it is
decoded and runs; a word that selects no operation is answered with its ILL response (R59, R60, R122). -/
def busyEdge (s : State) : Host.Outcome State Fault Refusal :=
  match s.latency with
  | left + 1 => .next (s.waitEdge left)
  | 0 =>
    match decode s.cmd with
    | .ok i => exec i s
    | .error e => .next (s.present (.error (rejectCause e)))

/-- The block's own move at a rising edge. Reset has priority over every other event (R119). -/
def edge (s : State) : Host.Outcome State Fault Refusal :=
  if s.pins.rst then .next s.resetEdge
  else
    match s.phase with
    | .idle => .next (if s.pins.cmdValid then s.accept s.pins.cmd else s)
    | .busy => busyEdge s
    | .resp => .next (if s.pins.rspReady then s.take else s)

/-- One step is one rising edge of `clk`. A run in which the host does not hold its command inputs is
refused (R129, 93 U16). -/
def step (s : State) : Host.Outcome State Fault Refusal :=
  if s.holdBroken then .refused .commandNotHeld
  else
    match edge s with
    | .next t => .next (s.endEdge t)
    | .fault f => .fault f
    | .refused r => .refused r

/-- `s` with a command latched whose lowest `nbits` bits are those of `w` and whose other bits are
zero, at the point where its latency has passed, nothing of it has been done, and the coming edge has
quiet pins: that edge runs it (log entry 15). -/
def State.withFetchWord (s : State) (nbits w : Nat) : State :=
  { s with
    phase := .busy
    cmd := .ofTableWord nbits w
    k := 0
    call := .none
    rsp := Response.none
    latency := 0
    inputs := Pins.quiet :: s.inputs
    held := none }

end Sys2Proof.Machine
end

