-- ==== Sys2Proof/Machine/Assembler.lean ====
section
/-! DEFINITION. The assembler forms of spec/30_encoding.md R66, after their text has been read into
parts (log entry 21). -/

namespace Sys2Proof.Machine

/-- A value operand: a 128-bit pattern, or one of the five names. -/
inductive AsmValue where
  | pattern (v : Value)
  | nameMin
  | nameMax
  | nameZero
  | nameOne
  | nameRsv
  deriving DecidableEq, Repr

/-- The twelve forms of R66. An `s` of CVTDV is the binary64 pattern its literal names; an `s` of CVTIV
or an `m` is an integer. -/
inductive AsmLine where
  | neg (a : AsmValue)
  | cmp (a b : AsmValue)
  | cvtdv (s : Scalar)
  | cvtiv (s : Int)
  | cvtvd (a : AsmValue)
  | cvtvi (a : AsmValue)
  | ceil (a : AsmValue)
  | addmult (a b : AsmValue) (m : Int)
  | add (a b : AsmValue)
  | sub (a b : AsmValue)
  | enc (a : AsmValue)
  | dec
  deriving DecidableEq, Repr

/-- The pattern of a value operand (R23, R24, R66). -/
def AsmValue.value : AsmValue → Value
  | .pattern v => v
  | .nameMin => valueMin
  | .nameMax => valueMax
  | .nameZero => valueZero
  | .nameOne => valueOne
  | .nameRsv => rsv

/-- The instruction a line stands for; an integer is taken as two's complement in 64 bits. -/
def AsmLine.instr : AsmLine → Instr
  | .neg a => .neg a.value
  | .cmp a b => .cmp a.value b.value
  | .cvtdv s => .cvtdv s
  | .cvtiv s => .cvtiv (BitVec.ofInt 64 s)
  | .cvtvd a => .cvtvd a.value
  | .cvtvi a => .cvtvi a.value
  | .ceil a => .ceil a.value
  | .addmult a b m => .addmult a.value b.value (BitVec.ofInt 64 m)
  | .add a b => .add a.value b.value
  | .sub a b => .sub a.value b.value
  | .enc a => .enc a.value
  | .dec => .dec

/-- The command a line assembles to: `CMD` by R57, unused fields zero (R66). -/
def assemble (l : AsmLine) : Command := encode l.instr

end Sys2Proof.Machine
end

