-- ==== Sys2Proof/Safety.lean ====
section
/-! DEFINITION. The terms in which claims about the machine are put: well-formed responses
(spec/30_encoding.md R63 to R65; spec/60_exceptions.md R110, R112), the invariant of the controller
(spec/10_state.md R32 to R34; spec/70_reset_and_hazards.md R123, R124), runs and their results (R130),
a command as one atomic transaction (R33), and the causes a command can report (R106). -/

namespace Sys2Proof.Machine

/-! ## Responses -/

/-- The ST that goes with a CAUSE code (R110): 0x1 to 0xB give OVF, 0xC and 0xD IOERR, 0xE and 0xF
ILL, 0x0 OK. -/
def statusOfCause (c : BitVec 4) : BitVec 2 :=
  if c.toNat = 0 then 0b00
  else if c.toNat ≤ 0xB then 0b01
  else if c.toNat ≤ 0xD then 0b10
  else 0b11

/-- What holds of every response: ST is a function of CAUSE (R110), CR is never `10` (R65), and every
field but ST and CAUSE is zero in an error response (R63, R112). -/
structure Response.WellFormed (r : Response) : Prop where
  status : r.st = statusOfCause r.cause
  compare : r.cr ≠ 0b10
  errorZero : r.st ≠ 0b00 → r.r = 0 ∧ r.q = 0 ∧ r.cr = 0

/-! ## The controller's invariant -/

/-- The latched command is an ENC or a DEC. -/
def State.latchedUsesStream (s : State) : Bool :=
  match decode s.cmd with
  | .ok i => i.usesStream
  | .error _ => false

/-- The successful writes of the first `j` fields of a value (R99). -/
def okWrites (a : Value) (j : Nat) : List Transfer :=
  (List.range j).map fun n => .write (fieldOf a n) true

/-- The successful reads of the first `j` fields of a value (R100). -/
def okReads (a : Value) (j : Nat) : List Transfer :=
  (List.range j).map fun n => .read (some (fieldOf a n))

/-- The stream calls of an instruction that has moved `k` fields, all of them successful; `b` is DEC's
buffer. -/
def callsOf (i : Instr) (k : Nat) (b : ReadBuf) : List Transfer :=
  match i with
  | .enc a => okWrites a k
  | .dec => okReads b.value k
  | .neg _ | .cmp _ _ | .cvtdv _ | .cvtiv _ | .cvtvd _ | .cvtvi _ | .ceil _ => []
  | .addmult _ _ _ | .add _ _ | .sub _ _ => []

/-- The stream calls that the latched command has completed so far, all of them successful. -/
def State.callsDone (s : State) : List Transfer :=
  match decode s.cmd with
  | .ok i => callsOf i s.k s.buf
  | .error _ => []

/-- The controller's invariant. -/
structure State.Inv (s : State) : Prop where
  /-- The latched response is well formed. -/
  rspWellFormed : s.rsp.WellFormed
  /-- So is every response taken so far. -/
  responsesWellFormed : ∀ r ∈ s.responses, r.WellFormed
  /-- The response outputs are zero while no response is presented (R34, R123). -/
  rspZero : s.phase ≠ .resp → s.rsp = Response.none
  /-- `k ∈ {0, …, 4}` (R32). -/
  kBound : s.k ≤ 4
  /-- A command that has moved all its fields is no longer BUSY (R123). -/
  kBusy : s.phase = .busy → s.k < 4
  /-- A stream call exists only in BUSY of an ENC or DEC (R124). -/
  callBusy : s.call ≠ .none → s.phase = .busy ∧ s.latchedUsesStream = true
  /-- A command that is still waiting out its latency has done nothing. -/
  waiting : s.phase = .busy → s.latency ≠ 0 → s.call = .none ∧ s.k = 0
  /-- Only an ENC or DEC counts fields (R32). -/
  kStream : s.phase = .busy → s.latchedUsesStream = false → s.k = 0
  /-- The latest transfers are the `k` fields that the latched command has moved, in order (R32, R48). -/
  progress : s.phase = .busy → ∃ earlier, s.transfers = earlier ++ s.callsDone

/-! ## Runs -/

/-- `n` steps, stopping at a refusal. -/
def run : Nat → State → Host.Outcome State Fault Refusal
  | 0, s => .next s
  | n + 1, s =>
    match step s with
    | .next t => run n t
    | .fault f => .fault f
    | .refused r => .refused r

/-- The run has ended: IDLE, so that no response is presented, and no stream call outstanding (R130).
DESIGN CHOICE: a run whose last command a reset has abandoned counts as ended, and so does a run without
a command, although no response of a last command has then been taken (log entry 25). -/
def State.runEnded (s : State) : Bool := s.phase == .idle && s.call == .none

/-- The result of a run: its responses and its stream transfers with their answers (R130). -/
def State.runResult (s : State) : List Response × List Transfer := (s.responses, s.transfers)

/-- No coming edge resets the block. -/
def State.NoReset (s : State) : Prop := ∀ p ∈ s.inputs, p.rst = false

/-- The command `c` is latched and nothing of it has been done. -/
structure State.Started (s : State) (c : Command) : Prop where
  busy : s.phase = .busy
  latched : s.cmd = c
  noField : s.k = 0
  noCall : s.call = .none

/-- What an outside observer has seen of an outcome: the output pins, the responses and the transfers,
or that the run was refused. -/
def observe : Host.Outcome State Fault Refusal →
    Option (Outputs × List Response × List Transfer)
  | .next t => some (t.outputs, t.responses, t.transfers)
  | .fault _ => none
  | .refused _ => none

/-- Pins at which the host presents a command. -/
def presentPins (c : Command) : Pins := { Pins.quiet with cmdValid := true, cmd := c }

/-- Pins at which the host takes a response. -/
def takePins : Pins := { Pins.quiet with rspReady := true }

/-- The three edges of one promptly accepted and promptly answered stream call: the request is
raised, transferred, and answered with data `v`, or with `fail`. -/
def callPins (answer : Option Limb) : List Pins :=
  [Pins.quiet, { Pins.quiet with sqReady := true },
    { Pins.quiet with saValid := true, saOk := answer.isSome, saRdata := answer.getD 0 }]

/-! ## A command as one transaction (R33) -/

/-- The response of a command that does not use the stream: a function of its own fields (R33). -/
def computed : Instr → Option Response
  | .neg a => some (.ofR (negate a))
  | .cmp a b => some (.okCr (compareValues a b).code)
  | .cvtdv x => some (.ofR (doubleToValue x))
  | .cvtiv x => some (.ofR (intToValue x))
  | .cvtvd a => some (.ofQ (valueToDouble Config.v2dMode a))
  | .cvtvi a => some (.ofQ (valueToInt Config.v2iRound Config.v2iWidth a))
  | .ceil a => some (.ofR (ceiling a))
  | .addmult a b m => some (.ofR (scaledAccumulate a b m.toInt))
  | .add a b => some (.ofR (addValues a b))
  | .sub a b => some (.ofR (subValues a b))
  | .enc _ => none
  | .dec => none

/-- ENC's loop over the fields still to be written and the collaborator's answers (R99); `none` while
an answer is missing. -/
def encLoop : List Limb → List (Option Limb) → Option (Response × List Transfer)
  | [], _ => some (.okNothing, [])
  | _ :: _, [] => none
  | v :: _, none :: _ => some (.error .ioWr, [.write v false])
  | v :: vs, some _ :: answers =>
    (encLoop vs answers).map fun (r, ts) => (r, .write v true :: ts)

/-- DEC's loop over the fields read so far, newest first, and the collaborator's answers (R100);
`none` while an answer is missing. -/
def decLoop : List Limb → List (Option Limb) → Option (Response × List Transfer)
  | [fl, fh, lo, hi], _ => some (.okR (limbs hi lo fh fl), [])
  | _, [] => none
  | _, none :: _ => some (.error .ioRd, [.read none])
  | got, some v :: answers =>
    (decLoop (v :: got) answers).map fun (r, ts) => (r, .read (some v) :: ts)

/-- An instruction as one atomic transaction over the collaborator's answers. -/
def transactionOf (i : Instr) (answers : List (Option Limb)) : Option (Response × List Transfer) :=
  match i with
  | .enc a => encLoop [ihi a, ilo a, fhi a, flo a] answers
  | .dec => decLoop [] answers
  | .neg _ | .cmp _ _ | .cvtdv _ | .cvtiv _ | .cvtvd _ | .cvtvi _ | .ceil _ =>
    (computed i).map fun r => (r, [])
  | .addmult _ _ _ | .add _ _ | .sub _ _ => (computed i).map fun r => (r, [])

/-- `exec(CMD, A, B, M, S, stream) → (response, stream transfers)`: a command as one atomic transaction
over the collaborator's answers (R33). -/
def transaction (c : Command) (answers : List (Option Limb)) : Option (Response × List Transfer) :=
  match decode c with
  | .ok i => transactionOf i answers
  | .error e => some (.error (rejectCause e), [])

/-! ## Causes -/

/-- The causes a command can report, in check order (R106); V2I_RANGE is listed whatever the width. -/
def causesOf : Instr → List Cause
  | .neg _ => [.negRsv]
  | .cmp _ _ => []
  | .cvtdv _ => [.d2vNan, .d2vRange]
  | .cvtiv _ => [.i2vRange]
  | .cvtvd _ => [.negRsv]
  | .cvtvi _ => [.negRsv, .v2iRange]
  | .ceil _ => [.ceilOvf]
  | .addmult _ _ _ => [.negRsv, .amMmin, .amSplit, .amLow, .amHigh, .amRsv]
  | .add _ _ => [.negRsv, .amLow, .amRsv]
  | .sub _ _ => [.negRsv, .amLow, .amRsv]
  | .enc _ => [.ioWr]
  | .dec => [.ioRd]

end Sys2Proof.Machine
end

