-- ==== Sys2Proof/Certificates/Slice0/Obligations.lean ====
section
/-! DEFINITION. The statements about BG128-CORE, each a proposition for the provers. A command's
statement gives its decoding from its command word and the whole next state: a state written
`{ s with … }` has every field not named unchanged, which is the command's frame. -/

open Sys2Proof Sys2Proof.Machine

/-! ## Encoding -/

/-- Decoding the 392 bits of an encoded instruction gives the instruction back, for every operand
(R53, R57, R66), and no bit of a command is dropped: the 392 bits and the five fields carry the same
information. The order of the fields in the 392 bits, and that of the opcode table's numbering, is the
model's choice (log entry 14). -/
def Obligations.DecodeOfEncodedBits : Prop :=
  (∀ i : Instr, decode (Command.ofBits (encode i).toBits) = .ok i) ∧
  (∀ c : Command, Command.ofBits c.toBits = c) ∧
  (∀ v : BitVec 392, (Command.ofBits v).toBits = v) ∧
  (∀ nbits w : Nat, Command.ofTableWord nbits w = Command.ofBits (BitVec.ofNat 392 (w % 2 ^ nbits)))

/-- The opcode map of R57, both ways: a command decodes to an instruction exactly when its command word
is the instruction's and the fields that the instruction reads are its operands; no other field
matters (R58). -/
def Obligations.OpcodeMapSelectsByCommandWord : Prop :=
  ∀ (c : Command) (i : Instr), decode c = .ok i ↔
    match i with
    | .neg a => c.word = 0x01 ∧ c.a = a
    | .cmp a b => c.word = 0x02 ∧ c.a = a ∧ c.b = b
    | .cvtdv x => c.word = 0x03 ∧ c.s = x
    | .cvtiv x => c.word = 0x04 ∧ c.s = x
    | .cvtvd a => c.word = 0x05 ∧ c.a = a
    | .cvtvi a => c.word = 0x06 ∧ c.a = a
    | .ceil a => c.word = 0x07 ∧ c.a = a
    | .addmult a b m => c.word = 0x08 ∧ c.a = a ∧ c.b = b ∧ c.m = m
    | .add a b => c.word = 0x09 ∧ c.a = a ∧ c.b = b
    | .sub a b => c.word = 0x0A ∧ c.a = a ∧ c.b = b
    | .enc a => c.word = 0x0B ∧ c.a = a
    | .dec => c.word = 0x0C

/-- The command words that select no operation (R59, R60, R61): reserved bits are checked first, then
the four reserved opcodes; every other word is well formed and decodes. -/
def Obligations.ReservedWordsAreRejected : Prop :=
  ∀ c : Command,
    (decode c = .error .reservedBits ↔ c.word.extractLsb' 4 4 ≠ 0) ∧
    (decode c = .error .reservedOpcode ↔
      c.word = 0x00 ∨ c.word = 0x0D ∨ c.word = 0x0E ∨ c.word = 0x0F) ∧
    ((∃ i, decode c = .ok i) ↔ c.wellFormed = true)

/-- A few words written out from R57 decode to the instructions they stand for, and two lines of R66
assemble to commands that decode to theirs. -/
def Obligations.SampleWordsDecode : Prop :=
  decode ⟨0b00000001, valueOne, 0, 0, 0⟩ = .ok (.neg valueOne) ∧
  decode ⟨0b00000010, valueMin, valueMax, 0, 0⟩ = .ok (.cmp valueMin valueMax) ∧
  decode ⟨0b00000011, 0, 0, 0, 0x40F0000000000000⟩ = .ok (.cvtdv 0x40F0000000000000) ∧
  decode ⟨0b00000111, rsv, 0, 0, 0⟩ = .ok (.ceil rsv) ∧
  decode ⟨0b00001000, valueOne, valueMax, 3, 0⟩ = .ok (.addmult valueOne valueMax 3) ∧
  decode ⟨0b00001010, valueOne, valueZero, 7, 9⟩ = .ok (.sub valueOne valueZero) ∧
  decode ⟨0b00001100, 0, 0, 0, 0⟩ = .ok .dec ∧
  decode ⟨0b00011110, 0, 0, 0, 0⟩ = .error .reservedBits ∧
  decode (assemble (.cvtiv (-7))) = .ok (.cvtiv 0xFFFFFFFFFFFFFFF9) ∧
  decode (assemble (.cmp .nameMin .nameMax)) = .ok (.cmp valueMin valueMax)

/-! ## The value format -/

/-- The value of a pattern is `sint_128(P) / 2^64`, the weighted sum of its four limbs, with only the
sign bit's weight negative; the sign is bit 127, which is bit 31 of `ihi` (R21, R22). -/
def Obligations.ValueIsWeightedLimbs : Prop :=
  ∀ p : Value,
    val p = (p.toInt : ℚ) / 2 ^ 64 ∧
    val p = ((ihi p).toInt : ℚ) * 2 ^ 32 + (ilo p).toNat + ((fhi p).toNat : ℚ) / 2 ^ 32
      + ((flo p).toNat : ℚ) / 2 ^ 64 ∧
    limbs (ihi p) (ilo p) (fhi p) (flo p) = p ∧
    sign p = p.getLsbD 127 ∧ sign p = (ihi p).getLsbD 31 ∧
    (sign p = true ↔ val p < 0)

/-- The constants (R23) and the reserved pattern (R24). -/
def Obligations.ConstantsHaveTheirValues : Prop :=
  val valueMin = -2 ^ 63 + 1 / 2 ^ 64 ∧ val valueMax = 2 ^ 63 - 1 / 2 ^ 64 ∧
  val valueZero = 0 ∧ val valueOne = 1 ∧ val valueMin = -val valueMax ∧
  rsv.toInt = -2 ^ 127 ∧ representable rsv = false ∧
  valueMin = limbs 0x80000000 0 0 1 ∧
  valueMax = limbs 0x7fffffff 0xffffffff 0xffffffff 0xffffffff ∧
  valueZero = limbs 0 0 0 0 ∧ valueOne = limbs 0 1 0 0 ∧ rsv = limbs 0x80000000 0 0 0

/-- Representable is lying in [MIN, MAX], and every successful result of NEG, CVTDV, CVTIV, CEIL on a
representable operand, ADDMULT, ADD and SUB is representable (R25). -/
def Obligations.SuccessfulResultsAreRepresentable : Prop :=
  (∀ p : Value, representable p = true ↔ -(2 ^ 127 - 1) ≤ p.toInt ∧ p.toInt ≤ 2 ^ 127 - 1) ∧
  (∀ p : Value, representable p = true ↔ val valueMin ≤ val p ∧ val p ≤ val valueMax) ∧
  (∀ a r, negate a = .ok r → representable r = true) ∧
  (∀ x r, doubleToValue x = .ok r → representable r = true) ∧
  (∀ x r, intToValue x = .ok r → representable r = true) ∧
  (∀ a r, representable a = true → ceiling a = .ok r → representable r = true) ∧
  (∀ a b m r, scaledAccumulate a b m = .ok r → representable r = true) ∧
  (∀ a b r, addValues a b = .ok r → representable r = true) ∧
  (∀ a b r, subValues a b = .ok r → representable r = true)

/-- What `dbl` reads from a binary64 pattern is what R42 says it encodes: infinity and NaN at exponent
2047, and otherwise the signed magnitude of the normal or subnormal formula, exactly. -/
def Obligations.Binary64Layout : Prop :=
  ∀ v : Scalar,
    let e := (v.extractLsb' 52 11).toNat
    let f := (v.extractLsb' 0 52).toNat
    let s := v.getLsbD 63
    (e = 2047 → f ≠ 0 → dbl v = .nan) ∧
    (e = 2047 → f = 0 → dbl v = .inf s) ∧
    (e = 0 → ∃ u, dbl v = .finite s u ∧ (u : ℚ) / 2 ^ 1074 = (f : ℚ) / 2 ^ 52 / 2 ^ 1022) ∧
    (0 < e → e < 2047 → ∃ u, dbl v = .finite s u ∧
      (u : ℚ) / 2 ^ 1074 = (1 + (f : ℚ) / 2 ^ 52) * (2 : ℚ) ^ ((e : ℤ) - 1023))

/-- `RNE64` on the numbers the block rounds (R10): the result has at most 53 significant bits, no
number of at most 53 significant bits is nearer, and in a tie the significand is even. The units are
the model's (log entry 16). -/
def Obligations.RoundingIsNearestEven : Prop :=
  ∀ n : Nat,
    (∃ sig sh, sig < 2 ^ 53 ∧ rne64 n = sig * 2 ^ sh) ∧
    ∀ sig sh, sig < 2 ^ 53 →
      |(rne64 n : ℤ) - n| ≤ |((sig * 2 ^ sh : ℕ) : ℤ) - n| ∧
      (|(rne64 n : ℤ) - n| = |((sig * 2 ^ sh : ℕ) : ℤ) - n| → rne64 n ≠ sig * 2 ^ sh →
        ∃ sig' sh', sig' < 2 ^ 53 ∧ 2 ^ 52 ≤ sig' ∧ sig' % 2 = 0 ∧ rne64 n = sig' * 2 ^ sh')

/-! ## Negation and comparison -/

/-- The closed form of the negation helper (R72), its one failing case (R71) and its law (R74). -/
def Obligations.NegationClosedForm : Prop :=
  (∀ p : Value, p ≠ rsv → ∃ r, negate p = .ok r ∧ r = BitVec.ofNat 128 (2 ^ 128 - p.toNat) ∧
    r.toInt = -p.toInt ∧ val r = -val p ∧ representable r = true ∧ negate r = .ok p) ∧
  negate rsv = .error .negRsv ∧
  negate valueZero = .ok valueZero ∧ negate valueMin = .ok valueMax ∧
  negate valueMax = .ok valueMin

/-- NEG (R73): `R = −A` with `ST = OK`, or OVF(NEG_RSV) for RSV; B, M and S are ignored and nothing but
the phase and the response changes. -/
def Obligations.NegResponse : Prop :=
  ∀ (a b : Value) (m x : Scalar) (s : State),
    decode ⟨0x01, a, b, m, x⟩ = .ok (.neg a) ∧
    exec (.neg a) s = .next { s with
      phase := .resp
      rsp := if a = rsv then ⟨0b01, 0x1, 0, 0, 0⟩
        else ⟨0b00, 0x0, BitVec.ofInt 128 (-a.toInt), 0, 0⟩ }

/-- CMP (R76) answers the signed order of its operands (R77): `11` less, `00` equal, `01` greater; it
has no error. -/
def Obligations.CmpResponse : Prop :=
  ∀ (a b : Value) (m x : Scalar) (s : State),
    decode ⟨0x02, a, b, m, x⟩ = .ok (.cmp a b) ∧
    exec (.cmp a b) s = .next { s with
      phase := .resp
      rsp := if a.toInt < b.toInt then ⟨0b00, 0x0, 0, 0, 0b11⟩
        else if a.toInt = b.toInt then ⟨0b00, 0x0, 0, 0, 0b00⟩
        else ⟨0b00, 0x0, 0, 0, 0b01⟩ }

/-- Comparison is the signed order of the patterns, which is the order of their values (R77); it is
reflexive, antisymmetric and transitive (R78). -/
def Obligations.CompareOrderLaws : Prop :=
  (∀ x y, (compareValues x y = .less ↔ x.toInt < y.toInt) ∧
    (compareValues x y = .equal ↔ x.toInt = y.toInt) ∧
    (compareValues x y = .greater ↔ y.toInt < x.toInt)) ∧
  (∀ x y, (compareValues x y = .less ↔ val x < val y) ∧
    (compareValues x y = .equal ↔ val x = val y) ∧
    (compareValues x y = .greater ↔ val y < val x)) ∧
  (∀ x, compareValues x x = .equal) ∧
  (∀ x y, compareValues y x = (compareValues x y).swap) ∧
  (∀ x y z, compareValues x y ≠ .greater → compareValues y z ≠ .greater → compareValues x z ≠ .greater)

/-! ## Conversions -/

/-- CVTDV (R80) in its closed form (R81): NaN, then the range, then `d` rounded toward zero to a
multiple of `2^-64`, where `u` counts `|d|` in units of `2^-1074` (R42). -/
def Obligations.CvtdvResponse : Prop :=
  ∀ (a b : Value) (m x : Scalar) (s : State),
    decode ⟨0x03, a, b, m, x⟩ = .ok (.cvtdv x) ∧
    (dbl x = .nan → exec (.cvtdv x) s = .next { s with
      phase := .resp, rsp := ⟨0b01, 0x3, 0, 0, 0⟩ }) ∧
    (∀ neg, dbl x = .inf neg → exec (.cvtdv x) s = .next { s with
      phase := .resp, rsp := ⟨0b01, 0x2, 0, 0, 0⟩ }) ∧
    (∀ neg u, dbl x = .finite neg u → exec (.cvtdv x) s = .next { s with
      phase := .resp
      rsp :=
        let d : ℚ := (u : ℚ) / 2 ^ 1074
        let t : ℤ := ⌊d * 2 ^ 64⌋
        if 2 ^ 63 ≤ d then ⟨0b01, 0x2, 0, 0, 0⟩
        else ⟨0b00, 0x0, BitVec.ofInt 128 (if neg then -t else t), 0, 0⟩ })

/-- CVTIV (R82): the exact integer, or OVF(I2V_RANGE) when `|i| > 2^32 − 1`. -/
def Obligations.CvtivResponse : Prop :=
  ∀ (a b : Value) (m x : Scalar) (s : State),
    decode ⟨0x04, a, b, m, x⟩ = .ok (.cvtiv x) ∧
    exec (.cvtiv x) s = .next { s with
      phase := .resp
      rsp := if 2 ^ 32 - 1 < |x.toInt| then ⟨0b01, 0x4, 0, 0, 0⟩
        else ⟨0b00, 0x0, BitVec.ofInt 128 (x.toInt * 2 ^ 64), 0, 0⟩ }

/-- CVTVD (R83): OVF(NEG_RSV) for RSV; otherwise Q encodes a finite double of the operand's sign to
which no finite double is nearer, with an even significand in a tie. The operand's magnitude is
`|sint_128(A)|·2^1010` units of `2^-1074`. -/
def Obligations.CvtvdResponse : Prop :=
  ∀ (a b : Value) (m x : Scalar) (s : State),
    decode ⟨0x05, a, b, m, x⟩ = .ok (.cvtvd a) ∧
    (a = rsv → exec (.cvtvd a) s = .next { s with
      phase := .resp, rsp := ⟨0b01, 0x1, 0, 0, 0⟩ }) ∧
    (a ≠ rsv → ∃ q u, exec (.cvtvd a) s = .next { s with
        phase := .resp, rsp := ⟨0b00, 0x0, 0, q, 0⟩ } ∧
      dbl q = .finite (sign a) u ∧
      ∀ w neg u', dbl w = .finite neg u' →
        |(u : ℤ) - |a.toInt| * 2 ^ 1010| ≤ |(u' : ℤ) - |a.toInt| * 2 ^ 1010| ∧
        (|(u : ℤ) - |a.toInt| * 2 ^ 1010| = |(u' : ℤ) - |a.toInt| * 2 ^ 1010| → u ≠ u' →
          q.getLsbD 0 = false))

/-- CVTVD on the corner values of R83, and a value where the alternative rounding of R84 differs. -/
def Obligations.CvtvdCornerValues : Prop :=
  valueToDouble .correctRne valueZero = .ok 0x0000000000000000 ∧
  valueToDouble .correctRne valueMax = .ok 0x43E0000000000000 ∧
  valueToDouble .correctRne valueMin = .ok 0xC3E0000000000000 ∧
  valueToDouble .correctRne 0x00200000000000018000000000000000#128 = .ok 0x4340000000000001 ∧
  valueToDouble .sequentialRne 0x00200000000000018000000000000000#128 = .ok 0x4340000000000000 ∧
  Config.v2dMode = .correctRne

/-- CVTVI (R85): NEG_RSV, then V2I_RANGE, then the rounded integer in 64 bits, for every value of the
OPEN parameters; and the command's response with the block's own parameters. -/
def Obligations.CvtviResponse : Prop :=
  (∀ (round : V2iRound) (width : V2iWidth) (a : Value),
    valueToInt round width a =
      let v := val a
      let n : ℤ := match round with
        | .trunc => if v < 0 then -⌊|v|⌋ else ⌊|v|⌋
        | .floor => ⌊v⌋
      let w : ℕ := match width with
        | .w32 => 32
        | .w64 => 64
      if a = rsv then .error .negRsv
      else if n < -2 ^ (w - 1) ∨ 2 ^ (w - 1) - 1 < n then .error .v2iRange
      else .ok (BitVec.ofInt 64 n)) ∧
  (∀ (a b : Value) (m x : Scalar) (s : State),
    decode ⟨0x06, a, b, m, x⟩ = .ok (.cvtvi a) ∧
    exec (.cvtvi a) s = .next { s with
      phase := .resp
      rsp :=
        let v := val a
        let n : ℤ := match Config.v2iRound with
          | .trunc => if v < 0 then -⌊|v|⌋ else ⌊|v|⌋
          | .floor => ⌊v⌋
        let w : ℕ := match Config.v2iWidth with
          | .w32 => 32
          | .w64 => 64
        if a = rsv then ⟨0b01, 0x1, 0, 0, 0⟩
        else if n < -2 ^ (w - 1) ∨ 2 ^ (w - 1) - 1 < n then ⟨0b01, 0xB, 0, 0, 0⟩
        else ⟨0b00, 0x0, 0, BitVec.ofInt 64 n, 0⟩ })

/-- CVTVI answers OK for every value between `−2^31` and `2^31 − 1`, whatever the OPEN parameters are, and
Q is then the rounded integer; with `V2I_WIDTH = 64` the range error cannot happen, and under FLOOR the
result is the integer limbs (R85). -/
def Obligations.CvtviCompletesInRange : Prop :=
  (∀ (a : Value) (s : State), -2 ^ 31 ≤ val a → val a ≤ 2 ^ 31 - 1 →
    ∃ q, exec (.cvtvi a) s = .next { s with phase := .resp, rsp := ⟨0b00, 0x0, 0, q, 0⟩ } ∧
      q.toInt = roundToInt Config.v2iRound a ∧ |(q.toInt : ℚ) - val a| < 1) ∧
  (∀ (round : V2iRound) (a : Value), a ≠ rsv →
    ∃ q, valueToInt round .w64 a = .ok q ∧ q.toInt = roundToInt round a) ∧
  (∀ a : Value, a ≠ rsv → valueToInt .floor .w64 a = .ok (ihi a ++ ilo a))

/-! ## Ceiling -/

/-- CEIL (R86): an integer-valued operand is returned unchanged, RSV included; otherwise the next
integer, or OVF(CEIL_OVF) when that is `2^63`. -/
def Obligations.CeilResponse : Prop :=
  ∀ (a b : Value) (m x : Scalar) (s : State),
    decode ⟨0x07, a, b, m, x⟩ = .ok (.ceil a) ∧
    exec (.ceil a) s = .next { s with
      phase := .resp
      rsp := if a.toInt % 2 ^ 64 = 0 then ⟨0b00, 0x0, a, 0, 0⟩
        else
          let n := a.toInt / 2 ^ 64 + 1
          if n = 2 ^ 63 then ⟨0b01, 0x5, 0, 0, 0⟩
          else ⟨0b00, 0x0, BitVec.ofInt 128 (n * 2 ^ 64), 0, 0⟩ }

/-- The closed form and the laws of CEIL (R87): the result is `⌈val(A)⌉`, CEIL is idempotent, leaves
integers unchanged, and keeps values representable. -/
def Obligations.CeilLaws : Prop :=
  (∀ a, ceiling a =
    if a.toInt % 2 ^ 64 = 0 then .ok a
    else
      let n := a.toInt / 2 ^ 64 + 1
      if n = 2 ^ 63 then .error .ceilOvf else .ok (BitVec.ofInt 128 (n * 2 ^ 64))) ∧
  ∀ a r, ceiling a = .ok r →
    val r = ⌈val a⌉ ∧ ceiling r = .ok r ∧ (a.toInt % 2 ^ 64 = 0 → r = a) ∧
    (representable a = true → representable r = true)

/-! ## The scaled-accumulate engine -/

/-- ADDMULT in its closed form (R94), with the cause of each failure in check order (R111): the exact
sum, or NEG_RSV, AM_MMIN, AM_SPLIT, AM_LOW, AM_HIGH, AM_RSV, whichever holds first. On success
`val(R) = val(A) + m·val(B)` exactly. -/
def Obligations.AddmultResponse : Prop :=
  ∀ (a b : Value) (m x : Scalar) (s : State),
    decode ⟨0x08, a, b, m, x⟩ = .ok (.addmult a b m) ∧
    exec (.addmult a b m) s = .next { s with
      phase := .resp
      rsp :=
        let m' := if b.toInt < 0 then -m.toInt else m.toInt
        let mlo := (m' + 2 ^ 31) % 2 ^ 32 - 2 ^ 31
        let r1 := a.toInt + mlo * |b.toInt|
        let r2 := a.toInt + m.toInt * b.toInt
        if b = rsv then ⟨0b01, 0x1, 0, 0, 0⟩
        else if m.toInt = -2 ^ 63 then ⟨0b01, 0x6, 0, 0, 0⟩
        else if 2 ^ 63 - 2 ^ 31 ≤ m' then ⟨0b01, 0x7, 0, 0, 0⟩
        else if r1 < -2 ^ 127 ∨ 2 ^ 127 - 1 < r1 then ⟨0b01, 0x8, 0, 0, 0⟩
        else if r2 < -2 ^ 127 ∨ 2 ^ 127 - 1 < r2 then ⟨0b01, 0x9, 0, 0, 0⟩
        else if r2 = -2 ^ 127 then ⟨0b01, 0xA, 0, 0, 0⟩
        else ⟨0b00, 0x0, BitVec.ofInt 128 r2, 0, 0⟩ } ∧
    (∀ t, exec (.addmult a b m) s = .next t → t.rsp.st = 0b00 →
      val t.rsp.r = val a + (m.toInt : ℚ) * val b)

/-- Canon (R89) and Split (R90): what they return, and exactly when they fail. -/
def Obligations.CanonAndSplit : Prop :=
  (∀ (y : Value) (m : Int), -2 ^ 63 ≤ m → m ≤ 2 ^ 63 - 1 →
    (y = rsv → canon y m = .error .negRsv) ∧
    (y ≠ rsv → m = -2 ^ 63 → canon y m = .error .amMmin) ∧
    (y ≠ rsv → m ≠ -2 ^ 63 → ∃ y' m', canon y m = .ok (y', m') ∧
      sign y' = false ∧ (y'.toNat : ℤ) = |y.toInt| ∧ (ihi y').toNat ≤ 0x7fffffff ∧
      m' = (if sign y then -m else m) ∧ -2 ^ 63 < m' ∧ m' < 2 ^ 63 ∧
      m' * y'.toNat = m * y.toInt)) ∧
  (∀ m : Int, -2 ^ 63 < m → m < 2 ^ 63 →
    (2 ^ 63 - 2 ^ 31 ≤ m → splitMult m = .error .amSplit) ∧
    (m < 2 ^ 63 - 2 ^ 31 → ∃ mhi mlo, splitMult m = .ok (mhi, mlo) ∧ m = mhi * 2 ^ 32 + mlo ∧
      -2 ^ 31 ≤ mlo ∧ mlo ≤ 2 ^ 31 - 1 ∧ -2 ^ 31 ≤ mhi ∧ mhi ≤ 2 ^ 31 - 1))

/-- The limb step and the sign test (R91): the accumulator value splits exactly into the new limb, its
low 32 bits, and the carry, its quotient by `2^32`; and the leftover carry is accepted in exactly three
combinations with the signs. -/
def Obligations.LimbStepAndSignTest : Prop :=
  (∀ (xl : Limb) (p c : Int),
    (limbStep xl p c).1 = BitVec.ofInt 32 (xl.toNat + p + c) ∧
    ((limbStep xl p c).1.toNat : ℤ) + (limbStep xl p c).2 * 2 ^ 32 = xl.toNat + p + c ∧
    (limbStep xl p c).2 = (xl.toNat + p + c) / 2 ^ 32) ∧
  (∀ (before after : Value) (c : Int), signOk before after c = true ↔
    (c = 0 ∧ sign before = sign after) ∨ (c = 1 ∧ sign before = true ∧ sign after = false) ∨
    (c = -1 ∧ sign before = false ∧ sign after = true))

/-- The low pass adds `mlo·uint(y)` exactly, or fails exactly when the sum leaves the 128-bit range
(R92). -/
def Obligations.LowPassIsExact : Prop :=
  ∀ (x y : Value) (mlo : Int),
    lowPass x y mlo =
      let r := x.toInt + mlo * y.toNat
      if r < -2 ^ 127 ∨ 2 ^ 127 - 1 < r then .error .amLow else .ok (BitVec.ofInt 128 r)

/-- The high pass adds `mhi·uint(y)·2^32` exactly, or fails exactly when the sum leaves the 128-bit
range; it never changes `flo`, and with `mhi = 0` it changes nothing (R93). -/
def Obligations.HighPassIsExact : Prop :=
  ∀ (x y : Value) (mhi : Int),
    (highPass x y mhi =
      let r := x.toInt + mhi * y.toNat * 2 ^ 32
      if r < -2 ^ 127 ∨ 2 ^ 127 - 1 < r then .error .amHigh else .ok (BitVec.ofInt 128 r)) ∧
    (∀ r, highPass x y mhi = .ok r → flo r = flo x) ∧
    highPass x y 0 = .ok x

/-- Every intermediate of the limb steps fits a signed 64-bit accumulator (R95): the product, the
accumulator value and the carry-out, for every limb, every multiplier part and every carry-in of a
signed 32-bit range; and the high pass's leftover is at most `2^62` in magnitude. -/
def Obligations.AccumulatorFitsSixtyFourBits : Prop :=
  ∀ (xl yl : Limb) (part c : Int),
    -2 ^ 31 ≤ part → part ≤ 2 ^ 31 - 1 → -2 ^ 31 ≤ c → c ≤ 2 ^ 31 - 1 →
    (-2 ^ 63 + 2 ^ 31 ≤ part * yl.toNat ∧ part * yl.toNat ≤ 2 ^ 63 - 2 ^ 32 - 2 ^ 31 + 1) ∧
    (-2 ^ 63 ≤ stepSum xl (part * yl.toNat) c ∧ stepSum xl (part * yl.toNat) c ≤ 2 ^ 63 - 1) ∧
    (-2 ^ 31 ≤ (limbStep xl (part * yl.toNat) c).2 ∧
      (limbStep xl (part * yl.toNat) c).2 ≤ 2 ^ 31 - 1) ∧
    (yl.toNat ≤ 0x7fffffff → |c + part * yl.toNat| ≤ 2 ^ 62)

/-- ADD (R96): the exact sum, or NEG_RSV, AM_LOW, AM_RSV. -/
def Obligations.AddResponse : Prop :=
  ∀ (a b : Value) (m x : Scalar) (s : State),
    decode ⟨0x09, a, b, m, x⟩ = .ok (.add a b) ∧
    exec (.add a b) s = .next { s with
      phase := .resp
      rsp :=
        let r := a.toInt + b.toInt
        if b = rsv then ⟨0b01, 0x1, 0, 0, 0⟩
        else if r < -2 ^ 127 ∨ 2 ^ 127 - 1 < r then ⟨0b01, 0x8, 0, 0, 0⟩
        else if r = -2 ^ 127 then ⟨0b01, 0xA, 0, 0, 0⟩
        else ⟨0b00, 0x0, BitVec.ofInt 128 r, 0, 0⟩ }

/-- SUB (R97): the exact difference, or NEG_RSV, AM_LOW, AM_RSV. -/
def Obligations.SubResponse : Prop :=
  ∀ (a b : Value) (m x : Scalar) (s : State),
    decode ⟨0x0A, a, b, m, x⟩ = .ok (.sub a b) ∧
    exec (.sub a b) s = .next { s with
      phase := .resp
      rsp :=
        let r := a.toInt - b.toInt
        if b = rsv then ⟨0b01, 0x1, 0, 0, 0⟩
        else if r < -2 ^ 127 ∨ 2 ^ 127 - 1 < r then ⟨0b01, 0x8, 0, 0, 0⟩
        else if r = -2 ^ 127 then ⟨0b01, 0xA, 0, 0, 0⟩
        else ⟨0b00, 0x0, BitVec.ofInt 128 r, 0, 0⟩ }

/-- The adder laws (R98): (a), (b) ADDMULT by ±1 is ADD and SUB, response for response; (c) identity;
(d) commutativity; (e) associativity when all four additions succeed; (f) ADD undoes SUB; (g) every
successful result is exact. -/
def Obligations.AdderLaws : Prop :=
  (∀ x y s, exec (.addmult x y 1) s = exec (.add x y) s) ∧
  (∀ x y s, exec (.addmult x y (-1)) s = exec (.sub x y) s) ∧
  (∀ x, representable x = true → addValues x valueZero = .ok x) ∧
  (∀ a b s, representable a = true → representable b = true →
    exec (.add a b) s = exec (.add b a) s) ∧
  (∀ a b c ab abc bc abc', addValues a b = .ok ab → addValues ab c = .ok abc →
    addValues b c = .ok bc → addValues a bc = .ok abc' → abc = abc') ∧
  (∀ x y d, representable x = true → y ≠ rsv → subValues x y = .ok d → addValues d y = .ok x) ∧
  (∀ x y r, addValues x y = .ok r → val r = val x + val y) ∧
  (∀ x y r, subValues x y = .ok r → val r = val x - val y)

/-! ## The serializer and deserializer -/

/-- One edge of ENC in each state of its stream call (R99, R124): the request is raised, held until
`sq_ready`, then the answer awaited; a `fail` answer ends the command with IOERR(IO_WR), an `ok` moves
on to the next field, and the fourth `ok` completes the command. The edges a call takes are the model's
choice (log entry 11). -/
def Obligations.EncEdges : Prop :=
  ∀ (a b : Value) (m x : Scalar) (s : State),
    decode ⟨0x0B, a, b, m, x⟩ = .ok (.enc a) ∧
    (s.call = .none → exec (.enc a) s = .next { s with call := .requested }) ∧
    (s.call = .requested → exec (.enc a) s =
      .next (if s.pins.sqReady then { s with call := .awaiting } else s)) ∧
    (s.call = .awaiting → s.pins.saValid = false → exec (.enc a) s = .next s) ∧
    (s.call = .awaiting → s.pins.saValid = true → s.pins.saOk = false →
      exec (.enc a) s = .next { s with
        call := .none, transfers := s.transfers ++ [.write (fieldOf a s.k) false]
        phase := .resp, rsp := ⟨0b10, 0xC, 0, 0, 0⟩ }) ∧
    (s.call = .awaiting → s.pins.saValid = true → s.pins.saOk = true → s.k < 3 →
      exec (.enc a) s = .next { s with
        call := .none, transfers := s.transfers ++ [.write (fieldOf a s.k) true], k := s.k + 1 }) ∧
    (s.call = .awaiting → s.pins.saValid = true → s.pins.saOk = true → s.k = 3 →
      exec (.enc a) s = .next { s with
        call := .none, transfers := s.transfers ++ [.write (flo a) true], k := 4
        phase := .resp, rsp := ⟨0b00, 0x0, 0, 0, 0⟩ })

/-- One edge of DEC in each state of its stream call (R100, R124); the fourth value completes the
command with the pattern of the four fields read. The edges a call takes are the model's choice (log
entry 11). -/
def Obligations.DecEdges : Prop :=
  ∀ (a b : Value) (m x : Scalar) (s : State),
    decode ⟨0x0C, a, b, m, x⟩ = .ok .dec ∧
    (s.call = .none → exec .dec s = .next { s with call := .requested }) ∧
    (s.call = .requested → exec .dec s =
      .next (if s.pins.sqReady then { s with call := .awaiting } else s)) ∧
    (s.call = .awaiting → s.pins.saValid = false → exec .dec s = .next s) ∧
    (s.call = .awaiting → s.pins.saValid = true → s.pins.saOk = false →
      exec .dec s = .next { s with
        call := .none, transfers := s.transfers ++ [.read none]
        phase := .resp, rsp := ⟨0b10, 0xD, 0, 0, 0⟩ }) ∧
    (s.call = .awaiting → s.pins.saValid = true → s.pins.saOk = true → s.k < 3 →
      exec .dec s = .next { s with
        call := .none, transfers := s.transfers ++ [.read (some s.pins.saRdata)], k := s.k + 1
        buf := s.buf.put s.k s.pins.saRdata }) ∧
    (s.call = .awaiting → s.pins.saValid = true → s.pins.saOk = true → s.k = 3 →
      exec .dec s = .next { s with
        call := .none, transfers := s.transfers ++ [.read (some s.pins.saRdata)], k := 4
        buf := { s.buf with flo := s.pins.saRdata }, phase := .resp
        rsp := ⟨0b00, 0x0, limbs s.buf.ihi s.buf.ilo s.buf.fhi s.pins.saRdata, 0, 0⟩ })

/-- ENC with a collaborator that accepts and answers `ok` each time (R99): after its latency and
twelve edges the four fields have been written in the order `ihi, ilo, fhi, flo`, the bytes written are
the 16-byte image of `A`, and the response is OK with R, Q and CR zero. The number of edges is the
model's choice (log entries 6, 11). -/
def Obligations.EncWritesTheImage : Prop :=
  ∀ (c : Command) (a : Value) (s : State) (rest : List Pins) (d0 d1 d2 d3 : Limb),
    decode c = .ok (.enc a) → s.Started c → s.held = none →
    s.inputs = List.replicate s.latency Pins.quiet ++ callPins (some d0) ++ callPins (some d1) ++
      callPins (some d2) ++ callPins (some d3) ++ rest →
    run (s.latency + 12) s = .next { s with
      phase := .resp, rsp := ⟨0b00, 0x0, 0, 0, 0⟩, k := 4, latency := 0, inputs := rest
      transfers := s.transfers ++ [.write (ihi a) true, .write (ilo a) true, .write (fhi a) true,
        .write (flo a) true] } ∧
    writtenBytes [.write (ihi a) true, .write (ilo a) true, .write (fhi a) true,
      .write (flo a) true] = image a

/-- DEC with a collaborator that accepts and answers each read with a value (R100): after its latency
and twelve edges R is the pattern of the four fields in the order read. The number of edges is the
model's choice (log entries 6, 11). -/
def Obligations.DecReadsTheFields : Prop :=
  ∀ (c : Command) (s : State) (rest : List Pins) (d0 d1 d2 d3 : Limb),
    decode c = .ok .dec → s.Started c → s.held = none →
    s.inputs = List.replicate s.latency Pins.quiet ++ callPins (some d0) ++ callPins (some d1) ++
      callPins (some d2) ++ callPins (some d3) ++ rest →
    run (s.latency + 12) s = .next { s with
      phase := .resp, rsp := ⟨0b00, 0x0, limbs d0 d1 d2 d3, 0, 0⟩, k := 4, latency := 0
      inputs := rest, buf := ⟨d0, d1, d2, d3⟩
      transfers := s.transfers ++ [.read (some d0), .read (some d1), .read (some d2),
        .read (some d3)] }

/-- The round trip (R101): when ENC of a value has succeeded and a DEC reads the fields that were
written, the DEC returns the value bit for bit, RSV included. -/
def Obligations.DecodeAfterEncode : Prop :=
  ∀ (ce cd : Command) (x : Value) (answers : List (Option Limb)) (rsp : Response)
    (writes : List Transfer) (v0 v1 v2 v3 : Limb),
    decode ce = .ok (.enc x) → decode cd = .ok .dec →
    transaction ce answers = some (rsp, writes) → rsp.st = 0b00 →
    writes = [.write v0 true, .write v1 true, .write v2 true, .write v3 true] →
    transaction cd [some v0, some v1, some v2, some v3] =
      some (⟨0b00, 0x0, x, 0, 0⟩,
        [.read (some v0), .read (some v1), .read (some v2), .read (some v3)])

/-- Byte `j` of the image of `P` is `P[127 − 8j : 120 − 8j]`, and the image of MIN (R40). -/
def Obligations.ImageIsBigEndian : Prop :=
  ∀ p : Value, (image p).length = 16 ∧
    (∀ j, j < 16 → (image p)[j]? = some (p.extractLsb' (120 - 8 * j) 8)) ∧
    image valueMin = [0x80, 0, 0, 0, 0, 0, 0, 0, 0, 0, 0, 0, 0, 0, 0, 1]

/-- An OK response of DEC, presented by a step from a state of the controller's invariant, is exactly
the four fields read last, in order; an OK response of ENC means that the four fields of its operand
were the last four transfers (R39, R99, R100). -/
def Obligations.StreamResponsesMatchTransfers : Prop :=
  ∀ s t : State, s.Inv → s.phase = .busy → step s = .next t → t.phase = .resp →
    t.rsp.st = 0b00 →
    (decode s.cmd = .ok .dec → ∃ earlier, t.transfers = earlier ++ okReads t.rsp.r 4) ∧
    (∀ a, decode s.cmd = .ok (.enc a) → ∃ earlier, t.transfers = earlier ++ okWrites a 4)

/-! ## Frames -/

/-- What no command changes when `exec` gives a next state: the latched command, the responses taken
and the model's own fields; a command that does not use the stream leaves the stream call, the
transfers, `k` and the read buffer alone (R45, R99), and ENC leaves the read buffer alone. A command
makes at most one transfer at an edge, and undoes none (R44). -/
def Obligations.ExecFrame : Prop :=
  ∀ (i : Instr) (s t : State), exec i s = .next t →
    t.cmd = s.cmd ∧ t.responses = s.responses ∧ t.latency = s.latency ∧ t.inputs = s.inputs ∧
    t.held = s.held ∧
    (i.usesStream = false → t.call = s.call ∧ t.transfers = s.transfers ∧ t.k = s.k ∧
      t.buf = s.buf ∧ t.phase = .resp) ∧
    (i ≠ .dec → t.buf = s.buf) ∧
    (∃ new, t.transfers = s.transfers ++ new ∧ new.length ≤ 1) ∧
    (s.phase = .busy → t.phase = .busy → t.rsp = s.rsp)

/-- What a step adds to the result of a run (R130; log entry 10). A transfer is only ever appended, at most one at an
edge, and only in BUSY of an ENC or DEC that awaits an answer at an edge with `sa_valid = 1` and
`rst = 0` (R44, R45, R48). A response enters only by being taken: in RESP, at an edge with
`rsp_ready = 1` and `rst = 0`, and it is the response presented (R123). -/
def Obligations.RunResultGrowsByHandshakes : Prop :=
  ∀ s t : State, step s = .next t →
    (t.transfers = s.transfers ∨
      ((∃ x, t.transfers = s.transfers ++ [x]) ∧ s.phase = .busy ∧ s.latchedUsesStream = true ∧
        s.call = .awaiting ∧ s.pins.saValid = true ∧ s.pins.rst = false)) ∧
    (t.responses = s.responses ∨
      (t.responses = s.responses ++ [s.rsp] ∧ s.phase = .resp ∧ t.phase = .idle ∧
        s.pins.rspReady = true ∧ s.pins.rst = false))

/-! ## The controller -/

/-- When the latched command of a BUSY block decodes to `i` and its latency has passed, a step at an
edge without reset is `exec i`, after which the edge's pins are past and the hold duty is noted (the
model's own fields: log entries 2, 6, 9). -/
def Obligations.StepRunsTheLatchedCommand : Prop :=
  ∀ (s : State) (i : Instr), s.phase = .busy → s.latency = 0 → s.pins.rst = false →
    s.holdBroken = false → decode s.cmd = .ok i →
    step s = match exec i s with
      | .next t => .next { t with inputs := s.inputs.tail, held := s.holdNext }
      | .fault f => .fault f
      | .refused r => .refused r

/-- A BUSY block whose latched command word selects no operation answers ILL: ILL_RES when RES is not
zero, else ILL_OP, with R, Q and CR zero and no other effect (R59, R60). -/
def Obligations.IllegalCommandResponse : Prop :=
  ∀ s : State, s.phase = .busy → s.latency = 0 → s.pins.rst = false → s.holdBroken = false →
    (s.cmd.word.extractLsb' 4 4 ≠ 0 → step s = .next { s with
      phase := .resp, rsp := ⟨0b11, 0xF, 0, 0, 0⟩, inputs := s.inputs.tail, held := s.holdNext }) ∧
    (s.cmd.word = 0x00 ∨ s.cmd.word = 0x0D ∨ s.cmd.word = 0x0E ∨ s.cmd.word = 0x0F →
      step s = .next { s with
        phase := .resp, rsp := ⟨0b11, 0xE, 0, 0, 0⟩, inputs := s.inputs.tail
        held := s.holdNext })

/-- The values the spec gives the state after reset, and the outputs there (R34, R121). That a run
without a command has ended is the model's choice (log entry 25). -/
def Obligations.ResetStateValues : Prop :=
  State.reset.phase = .idle ∧ State.reset.k = 0 ∧ State.reset.rspValid = false ∧
  State.reset.rsp = ⟨0, 0, 0, 0, 0⟩ ∧ State.reset.call = .none ∧
  State.reset.outputs.sqValid = false ∧ State.reset.cmdReady = true ∧
  State.reset.responses = [] ∧ State.reset.transfers = [] ∧ State.reset.runEnded = true

/-- An edge with `rst = 1` (R119), whatever the phase: IDLE, `k = 0`, no response and outputs zero, no
stream request, `cmd_ready = 0` during the edge; no handshake of that edge has an effect, and the
transfers made so far stay made (R120). -/
def Obligations.ResetHasPriority : Prop :=
  ∀ s : State, s.pins.rst = true → s.holdBroken = false →
    s.cmdReady = false ∧
    ∃ t, step s = .next t ∧ t.phase = .idle ∧ t.k = 0 ∧ t.rsp = ⟨0, 0, 0, 0, 0⟩ ∧
      t.rspValid = false ∧ t.call = .none ∧ t.outputs.sqValid = false ∧ t.responses = s.responses ∧
      t.transfers = s.transfers ∧ t.inputs = s.inputs.tail

/-- Command acceptance (R122): `cmd_ready = 1` exactly in IDLE without reset; there, a presented
command is latched whole and the block is BUSY with no field transferred and the latency of the command
before it (R127; its count is the model's choice, log entry 6), and without one it stays
IDLE as it is. That acceptance clears `k` and the call is read from R32 and R33 (log entry 18). -/
def Obligations.CommandAcceptance : Prop :=
  ∀ s : State,
    (s.cmdReady = true ↔ s.phase = .idle ∧ s.pins.rst = false) ∧
    (s.cmdReady = true → s.holdBroken = false → s.pins.cmdValid = true →
      ∃ t, step s = .next t ∧ t.phase = .busy ∧ t.cmd = s.pins.cmd ∧ t.k = 0 ∧ t.call = .none ∧
        t.latency = Config.waitEdges t.cmd ∧ t.rsp = s.rsp ∧ t.responses = s.responses ∧ t.transfers = s.transfers ∧
        t.inputs = s.inputs.tail ∧ t.held = none) ∧
    (s.cmdReady = true → s.holdBroken = false → s.pins.cmdValid = false →
      step s = .next { s with inputs := s.inputs.tail, held := none })

/-- The response handshake (R123): in RESP without reset, `rsp_ready = 1` takes the response, after
which the block is IDLE and its response outputs are zero; otherwise the response stays as it is. -/
def Obligations.ResponseHandshake : Prop :=
  ∀ s : State, s.phase = .resp → s.pins.rst = false → s.holdBroken = false →
    s.cmdReady = false ∧ s.rspValid = true ∧
    (s.pins.rspReady = true → ∃ t, step s = .next t ∧ t.phase = .idle ∧ t.rspValid = false ∧
      t.rsp = ⟨0, 0, 0, 0, 0⟩ ∧ t.responses = s.responses ++ [s.rsp] ∧
      t.transfers = s.transfers) ∧
    (s.pins.rspReady = false → step s = .next { s with
      inputs := s.inputs.tail, held := s.holdNext })

/-- The request channel (R68, R124): `sq_valid = 1` exactly in BUSY of an ENC or DEC with a request
pending; `sq_width` is always 32, also while `sq_valid = 0`; ENC's request is a write of the field whose
number is `k`, DEC's a read; and a request is held stable over an edge without `sq_ready` and without
reset. That `sq_wdata` has no value for a read, and neither it nor `sq_write` while `sq_valid = 0`, is
the model's choice (log entry 19). -/
def Obligations.StreamRequestChannel : Prop :=
  ∀ s : State,
    (s.outputs.sqValid = true ↔
      s.phase = .busy ∧ s.call = .requested ∧ s.latchedUsesStream = true) ∧
    s.outputs.sqWidth = 0b100000 ∧
    (s.outputs.sqWrite ≠ none ↔ s.outputs.sqValid = true) ∧
    (s.outputs.sqWdata ≠ none ↔ s.outputs.sqWrite = some true) ∧
    (∀ a, decode s.cmd = .ok (.enc a) → s.phase = .busy → s.call = .requested →
      s.outputs.sqWrite = some true ∧ s.outputs.sqWdata = some (fieldOf a s.k)) ∧
    (decode s.cmd = .ok .dec → s.phase = .busy → s.call = .requested →
      s.outputs.sqWrite = some false ∧ s.outputs.sqWdata = none) ∧
    (∀ t, s.outputs.sqValid = true → s.pins.sqReady = false → s.pins.rst = false →
      step s = .next t → t.outputs.sqValid = true ∧ t.outputs.sqWrite = s.outputs.sqWrite ∧
        t.outputs.sqWdata = s.outputs.sqWdata)

/-- An answer at an edge where no call is outstanding is ignored: the step does not depend on `sa_valid`,
`sa_ok` and `sa_rdata` there (R124). -/
def Obligations.UnexpectedAnswerIsIgnored : Prop :=
  ∀ (s : State) (p : Pins) (rest : List Pins) (v ok : Bool) (d : Limb), s.call ≠ .awaiting →
    step { s with inputs := { p with saValid := v, saOk := ok, saRdata := d } :: rest } =
      step { s with inputs := p :: rest }

/-- The host's duty (R122, R129): a command must be held after a step exactly when it was presented at
the step's edge and not accepted; a step is refused exactly when the command that must be held is not
presented unchanged at its edge; nothing else is refused. That a dropped `cmd_valid` breaks the duty is
the model's reading (log entry 9). -/
def Obligations.StepRefusesOnlyAnUnheldCommand : Prop :=
  (∀ (s : State) (r : Refusal), step s = .refused r ↔
    r = .commandNotHeld ∧ ∃ c, s.held = some c ∧ ¬(s.pins.cmdValid = true ∧ s.pins.cmd = c)) ∧
  (∀ (s t : State) (c : Command), step s = .next t →
    (t.held = some c ↔ s.pins.cmdValid = true ∧ s.pins.cmd = c ∧ s.cmdReady = false))

/-- The two waits (R128): an awaited answer that does not come leaves the block BUSY with the same
outputs but for `cmd_ready`'s pin, and so does a request that is not accepted. -/
def Obligations.WaitsForTheCollaborator : Prop :=
  ∀ (s : State), s.phase = .busy → s.latency = 0 → s.latchedUsesStream = true →
    s.pins.rst = false → s.holdBroken = false →
    ((s.call = .awaiting ∧ s.pins.saValid = false) ∨
      (s.call = .requested ∧ s.pins.sqReady = false)) →
    step s = .next { s with inputs := s.inputs.tail, held := s.holdNext }

/-- A command other than ENC and DEC, the illegal ones included, completes (R122, R123, R127, R128):
from IDLE, presented, left to its latency and taken, it adds exactly the response of its transaction
(R33), which needs no answer, to the run's result, moves nothing on the stream, and leaves the block
IDLE. How its latency is counted is the model's choice (log entry 6). -/
def Obligations.CommandRunCompletes : Prop :=
  ∀ (c : Command) (r : Response) (s : State) (rest : List Pins),
    transaction c [] = some (r, []) → s.phase = .idle → s.held = none →
    s.inputs = presentPins c :: List.replicate (Config.waitEdges c + 1) Pins.quiet ++
      takePins :: rest →
    ∃ t, run (Config.waitEdges c + 3) s = .next t ∧ t.runEnded = true ∧
      t.rsp = ⟨0, 0, 0, 0, 0⟩ ∧ t.responses = s.responses ++ [r] ∧ t.transfers = s.transfers ∧
      t.inputs = rest ∧ t.held = none

/-- The latency of a command that does not use the stream (R127): no run without reset from its
acceptance leaves BUSY in fewer than `LAT` edges, and `LAT` is at least 1. Acceptance sets the edges to
wait to `Config.waitEdges` of the command, the model's choice (log entry 6). -/
def Obligations.ResponseNotBeforeLat : Prop :=
  1 ≤ Config.lat ∧
  ∀ (n : Nat) (s t : State), s.phase = .busy → s.latchedUsesStream = false →
    s.latency = Config.waitEdges s.cmd → s.NoReset → run n s = .next t → t.phase ≠ .busy →
    Config.lat ≤ n

/-- The invariant holds after reset. -/
def Obligations.ResetMeetsInvariant : Prop := State.reset.Inv

/-- Every step keeps the controller's invariant: responses well formed (R63 to R65, R110, R112) and
zero while none is presented (R34, R123), `k` in range (R32), stream calls only in BUSY of an ENC or
DEC (R124), and the latest transfers the fields the latched command has moved (R48). -/
def Obligations.StepKeepsInvariant : Prop :=
  ∀ s t : State, s.Inv → step s = .next t → t.Inv

/-- Every response a step presents from BUSY has the ST of its CAUSE (R110), a CR other than `10`
(R65), and nothing but ST and CAUSE when it is an error (R112). -/
def Obligations.PresentedResponsesAreWellFormed : Prop :=
  ∀ s t : State, s.phase = .busy → step s = .next t → t.phase = .resp →
    t.rsp.st = statusOfCause t.rsp.cause ∧ t.rsp.cr ≠ 0b10 ∧
    (t.rsp.st ≠ 0b00 → t.rsp.r = 0 ∧ t.rsp.q = 0 ∧ t.rsp.cr = 0)

/-- A command reports no cause but those R106 lists for it, and V2I_RANGE only when `V2I_WIDTH = 32`. -/
def Obligations.CommandsReportOnlyTheirCauses : Prop :=
  ∀ (i : Instr) (s t : State), s.phase = .busy → exec i s = .next t → t.phase = .resp →
    t.rsp.cause = 0 ∨
    ∃ c ∈ causesOf i, t.rsp.cause = c.code ∧ (c = .v2iRange → Config.v2iWidth = .w32)

/-- Every cause that R106 lists for a command does occur for it, V2I_RANGE with `V2I_WIDTH = 32`; for ENC
and DEC at a step from a state of the controller's invariant in which the command is latched. -/
def Obligations.EveryListedCauseOccurs : Prop :=
  (∃ a, negate a = .error .negRsv) ∧
  (∃ x, doubleToValue x = .error .d2vNan) ∧ (∃ x, doubleToValue x = .error .d2vRange) ∧
  (∃ x, intToValue x = .error .i2vRange) ∧
  (∃ a, valueToDouble Config.v2dMode a = .error .negRsv) ∧
  (∀ round width, ∃ a, valueToInt round width a = .error .negRsv) ∧
  (∀ round, ∃ a, valueToInt round .w32 a = .error .v2iRange) ∧
  (∃ a, ceiling a = .error .ceilOvf) ∧
  (∀ c ∈ causesOf (.addmult 0 0 0), ∃ a b, ∃ m : Scalar,
    scaledAccumulate a b m.toInt = .error c) ∧
  (∀ c ∈ causesOf (.add 0 0), ∃ a b, addValues a b = .error c) ∧
  (∀ c ∈ causesOf (.sub 0 0), ∃ a b, subValues a b = .error c) ∧
  (∀ a, ∃ s t, s.Inv ∧ s.phase = .busy ∧ decode s.cmd = .ok (.enc a) ∧ step s = .next t ∧
    t.phase = .resp ∧ t.rsp.cause = Cause.code .ioWr) ∧
  (∃ s t, s.Inv ∧ s.phase = .busy ∧ decode s.cmd = .ok .dec ∧ step s = .next t ∧
    t.phase = .resp ∧ t.rsp.cause = Cause.code .ioRd)

/-- The host's assignment (R67, R112): an error response leaves the host's variable unchanged, a success
writes the result field into it. -/
def Obligations.HostKeepsOperandOnError : Prop :=
  (∀ (c : Cause) (v : Value) (q : Scalar) (o : BitVec 2),
    (Response.error c).assignR v = v ∧ (Response.error c).assignQ q = q ∧
    (Response.error c).assignCr o = o) ∧
  (∀ r v : Value, (Response.okR r).assignR v = r) ∧
  (∀ q v : Scalar, (Response.okQ q).assignQ v = q) ∧
  (∀ o v : BitVec 2, (Response.okCr o).assignCr v = o)

/-! ## The command as a transaction -/

/-- The controller refines the atomic transaction of R33: from the latched command to its response,
over any number of edges without reset, with any handshake delays and any answers, the response
presented and the transfers made are those of the transaction for the answers received. -/
def Obligations.ControllerRefinesTransaction : Prop :=
  ∀ (n : Nat) (c : Command) (s t : State), s.Started c → s.NoReset → run n s = .next t →
    t.phase = .resp → t.responses = s.responses →
    ∃ answers new, transaction c answers = some (t.rsp, new) ∧
      t.transfers = s.transfers ++ new

/-- Nothing is retained between commands (R33, R34): two IDLE states that differ in `cmd`, `k`, `buf`
and the latency left, and agree in the run so far and the pins to come, look the same to every observer
for ever. -/
def Obligations.NothingIsRetained : Prop :=
  ∀ (n : Nat) (s s' : State), s.Inv → s'.Inv → s.phase = .idle → s'.phase = .idle →
    s.responses = s'.responses → s.transfers = s'.transfers → s.inputs = s'.inputs →
    s.held = s'.held → observe (run n s) = observe (run n s')

/-- Fields that a command does not read change nothing (R58): two BUSY states that differ only in
unread fields of the latched command take the same step, while they wait and when the command runs, but
for the latched command itself. -/
def Obligations.UnreadFieldsChangeNothing : Prop :=
  ∀ (s : State) (c : Command) (i : Instr), s.phase = .busy →
    decode s.cmd = .ok i → decode c = .ok i →
    step { s with cmd := c } = match step s with
      | .next t => .next { t with cmd := c }
      | .fault f => .fault f
      | .refused r => .refused r
end

