-- ==== Sys2Proof/Laws/Limbs.lean ====
section
/-! SUPPORT. The limbs of a value as numbers (spec/10_state.md R20, R21). -/

namespace Sys2Proof.Machine

theorem toNat_ihi (p : Value) : (ihi p).toNat = p.toNat / 2 ^ 96 % 2 ^ 32 := by
  simp [ihi, BitVec.extractLsb'_toNat, Nat.shiftRight_eq_div_pow]

theorem toNat_ilo (p : Value) : (ilo p).toNat = p.toNat / 2 ^ 64 % 2 ^ 32 := by
  simp [ilo, BitVec.extractLsb'_toNat, Nat.shiftRight_eq_div_pow]

theorem toNat_fhi (p : Value) : (fhi p).toNat = p.toNat / 2 ^ 32 % 2 ^ 32 := by
  simp [fhi, BitVec.extractLsb'_toNat, Nat.shiftRight_eq_div_pow]

theorem toNat_flo (p : Value) : (flo p).toNat = p.toNat % 2 ^ 32 := by
  simp [flo, BitVec.extractLsb'_toNat]

/-- A pattern as a number is the weighted sum of its limbs. -/
theorem toNat_eq_limbs (p : Value) :
    p.toNat = (ihi p).toNat * 2 ^ 96 + (ilo p).toNat * 2 ^ 64 + (fhi p).toNat * 2 ^ 32
      + (flo p).toNat := by
  rw [toNat_ihi, toNat_ilo, toNat_fhi, toNat_flo]
  have := p.isLt
  omega

theorem toNat_limbs (a b c d : Limb) :
    (limbs a b c d).toNat = a.toNat * 2 ^ 96 + b.toNat * 2 ^ 64 + c.toNat * 2 ^ 32 + d.toNat := by
  have hb := b.isLt
  have hc := c.isLt
  have hd := d.isLt
  simp only [limbs, BitVec.toNat_append]
  rw [← Nat.shiftLeft_add_eq_or_of_lt hb, ← Nat.shiftLeft_add_eq_or_of_lt hc,
    ← Nat.shiftLeft_add_eq_or_of_lt hd]
  simp only [Nat.shiftLeft_eq]
  omega

@[simp] theorem ihi_limbs (a b c d : Limb) : ihi (limbs a b c d) = a := by
  apply BitVec.eq_of_toNat_eq
  rw [toNat_ihi, toNat_limbs]
  have := a.isLt; have := b.isLt; have := c.isLt; have := d.isLt
  omega

@[simp] theorem ilo_limbs (a b c d : Limb) : ilo (limbs a b c d) = b := by
  apply BitVec.eq_of_toNat_eq
  rw [toNat_ilo, toNat_limbs]
  have := a.isLt; have := b.isLt; have := c.isLt; have := d.isLt
  omega

@[simp] theorem fhi_limbs (a b c d : Limb) : fhi (limbs a b c d) = c := by
  apply BitVec.eq_of_toNat_eq
  rw [toNat_fhi, toNat_limbs]
  have := a.isLt; have := b.isLt; have := c.isLt; have := d.isLt
  omega

@[simp] theorem flo_limbs (a b c d : Limb) : flo (limbs a b c d) = d := by
  apply BitVec.eq_of_toNat_eq
  rw [toNat_flo, toNat_limbs]
  have := a.isLt; have := b.isLt; have := c.isLt; have := d.isLt
  omega

/-- A pattern is rebuilt from its limbs. -/
@[simp] theorem limbs_of_limbs (p : Value) : limbs (ihi p) (ilo p) (fhi p) (flo p) = p := by
  apply BitVec.eq_of_toNat_eq
  rw [toNat_limbs, ← toNat_eq_limbs]

/-- The signed reading of a pattern, from its number and its sign bit (R7, R22). -/
theorem toInt_eq_sign (p : Value) :
    p.toInt = (p.toNat : Int) - if sign p then 2 ^ 128 else 0 := by
  rw [BitVec.toInt_eq_msb_cond]
  unfold sign
  split <;> simp

theorem sign_eq_decide (p : Value) : sign p = decide (2 ^ 127 ≤ p.toNat) := by
  unfold sign
  rw [BitVec.msb_eq_decide]

end Sys2Proof.Machine
end

