-- ==== Sys2Proof/Laws/Arith.lean ====
section
/-! SUPPORT. What each arithmetic operation does, once: the increment and the negation helper
(spec/40_negate.md R70 to R72) and the limb step of the engine (spec/44_addmult.md R91). -/

namespace Sys2Proof.Machine

/-! ## Negation -/

theorem toNat_complement (l : Limb) : (0xffffffff - l).toNat + l.toNat = 2 ^ 32 - 1 := by
  have := l.isLt
  rw [BitVec.toNat_sub]
  simp
  omega

/-- The increment of a limb, as numbers: the carry-in is added, and the carry-out is worth `2^32`. -/
theorem incLimb_spec (l : Limb) (c : Bool) :
    (incLimb l c).1.toNat + (if (incLimb l c).2 then 2 ^ 32 else 0) =
      l.toNat + (if c then 1 else 0) := by
  unfold incLimb
  have hl := l.isLt
  split
  · split
    · rename_i h; subst h; simp
    · rename_i h
      have hne : l.toNat ≠ 2 ^ 32 - 1 := fun e => h (BitVec.eq_of_toNat_eq (by simpa using e))
      simp [BitVec.toNat_add]
      omega
  · simp_all

/-- The increment through the three lower limbs, as one number. -/
theorem incLimbs_spec (n0 n1 n2 : Limb) :
    let r0 := incLimb n0 true
    let r1 := incLimb n1 r0.2
    let r2 := incLimb n2 r1.2
    r0.1.toNat + r1.1.toNat * 2 ^ 32 + r2.1.toNat * 2 ^ 64 + (if r2.2 then 2 ^ 96 else 0) =
      n0.toNat + n1.toNat * 2 ^ 32 + n2.toNat * 2 ^ 64 + 1 := by
  intro r0 r1 r2
  have s0 : r0.1.toNat + (if r0.2 then 2 ^ 32 else 0) = n0.toNat + 1 := incLimb_spec n0 true
  have s1 : r1.1.toNat + (if r1.2 then 2 ^ 32 else 0) = n1.toNat + (if r0.2 then 1 else 0) :=
    incLimb_spec n1 r0.2
  have s2 : r2.1.toNat + (if r2.2 then 2 ^ 32 else 0) = n2.toNat + (if r1.2 then 1 else 0) :=
    incLimb_spec n2 r1.2
  generalize r0 = q0 at *
  generalize r1 = q1 at *
  generalize r2 = q2 at *
  obtain ⟨l0, c0⟩ := q0
  obtain ⟨l1, c1⟩ := q1
  obtain ⟨l2, c2⟩ := q2
  cases c0 <;> cases c1 <;> cases c2 <;> simp only [if_true, Bool.false_eq_true, if_false] at * <;> omega

/-- The increment over four limbs adds one, as numbers, unless the carry meets `0x7fffffff`. -/
theorem incrementLimbs_spec (l3 l2 l1 l0 : Limb)
    (h : (limbs l3 l2 l1 l0).toNat ≠ 0x7fffffff * 2 ^ 96 + (2 ^ 96 - 1)) :
    ∃ r, incrementLimbs l3 l2 l1 l0 = .ok r ∧
      r.toNat = ((limbs l3 l2 l1 l0).toNat + 1) % 2 ^ 128 := by
  have s := incLimbs_spec l0 l1 l2
  unfold incrementLimbs
  rw [toNat_limbs] at h ⊢
  simp only at s ⊢
  generalize incLimb l0 true = q0 at *
  generalize incLimb l1 q0.2 = q1 at *
  generalize incLimb l2 q1.2 = q2 at *
  have b0 := q0.1.isLt
  have b1 := q1.1.isLt
  have b2 := q2.1.isLt
  have b3 := l3.isLt
  cases hq : q2.2 <;> simp only [hq, if_true, Bool.false_eq_true, if_false] at s ⊢
  · refine ⟨_, rfl, ?_⟩
    rw [toNat_limbs]
    omega
  · have h7 : l3 ≠ 0x7fffffff := by
      intro e
      have : l3.toNat = 0x7fffffff := by simp [e]
      omega
    rw [if_neg h7]
    refine ⟨_, rfl, ?_⟩
    have : (l3 + 1).toNat = (l3.toNat + 1) % 2 ^ 32 := by simp [BitVec.toNat_add]
    rw [toNat_limbs, this]
    omega

/-- The helper succeeds on every pattern but RSV, with the two's complement negation. -/
theorem negate_of_ne_rsv {p : Value} (h : p ≠ rsv) : negate p = .ok (-p) := by
  have hp := toNat_eq_limbs p
  have hr : p.toNat ≠ 2 ^ 127 := fun e => h (BitVec.eq_of_toNat_eq (by simpa [rsv] using e))
  have k0 := toNat_complement (flo p)
  have k1 := toNat_complement (fhi p)
  have k2 := toNat_complement (ilo p)
  have k3 := toNat_complement (ihi p)
  have e := toNat_limbs (0xffffffff - ihi p) (0xffffffff - ilo p) (0xffffffff - fhi p)
    (0xffffffff - flo p)
  obtain ⟨r, hr1, hr2⟩ := incrementLimbs_spec (0xffffffff - ihi p) (0xffffffff - ilo p)
    (0xffffffff - fhi p) (0xffffffff - flo p) (by omega)
  have : r = -p := by
    apply BitVec.eq_of_toNat_eq
    rw [hr2, BitVec.toNat_neg]
    omega
  rw [← this]
  exact hr1

/-- The helper fails on RSV. -/
theorem negate_rsv : negate rsv = .error .negRsv := by decide

theorem negate_eq (p : Value) : negate p = if p = rsv then .error .negRsv else .ok (-p) := by
  split
  · rename_i h; rw [h, negate_rsv]
  · rename_i h; exact negate_of_ne_rsv h

theorem toInt_rsv : rsv.toInt = -2 ^ 127 := by decide

theorem eq_rsv_iff (p : Value) : p = rsv ↔ p.toInt = -2 ^ 127 := by
  rw [← toInt_rsv]
  exact BitVec.toInt_inj.symm

theorem toInt_bounds (p : Value) : -2 ^ 127 ≤ p.toInt ∧ p.toInt ≤ 2 ^ 127 - 1 := by
  have h := p.isLt
  have hs := sign_eq_decide p
  rw [toInt_eq_sign, hs]
  by_cases hq : 2 ^ 127 ≤ p.toNat
  · rw [decide_eq_true hq, if_pos rfl]; omega
  · rw [decide_eq_false hq, if_neg Bool.false_ne_true]; omega

/-- Negation of a pattern other than RSV negates its signed reading. -/
theorem toInt_neg_of_ne_rsv {p : Value} (h : p ≠ rsv) : (-p).toInt = -p.toInt := by
  have hb := toInt_bounds p
  have hne : p.toInt ≠ -2 ^ 127 := fun e => h ((eq_rsv_iff p).mpr e)
  rw [BitVec.toInt_neg, Int.bmod_def]
  norm_num
  split <;> omega

/-! ## The limb step -/

/-- The limb step splits its accumulator value exactly: `t = new limb + carry·2^32`. -/
theorem limbStep_spec (xl : Limb) (p c : Int) :
    ((limbStep xl p c).1.toNat : Int) + (limbStep xl p c).2 * 2 ^ 32 = xl.toNat + p + c := by
  simp only [limbStep, stepSum]
  have h : ((BitVec.ofInt 32 (xl.toNat + p + c)).toNat : Int) = (xl.toNat + p + c) % 2 ^ 32 := by
    rw [BitVec.toNat_ofInt]
    norm_num
    omega
  rw [h]
  omega

/-- The carry-out of the limb step is the floor of its accumulator value by `2^32`. -/
theorem limbStep_carry (xl : Limb) (p c : Int) :
    (limbStep xl p c).2 = (xl.toNat + p + c) / 2 ^ 32 := by
  have h := limbStep_spec xl p c
  have := (limbStep xl p c).1.isLt
  omega

/-- The sign check holds exactly when an exact 128-bit sum is in the signed range; `v` is the exact sum
of the numbers, `c` the carry beyond `ihi`. -/
theorem signOk_iff (x x' : Value) (v c : Int) (h : (x.toNat : Int) + v = x'.toNat + c * 2 ^ 128) :
    signOk x x' c = true ↔ -2 ^ 127 ≤ x.toInt + v ∧ x.toInt + v ≤ 2 ^ 127 - 1 := by
  have hx := x.isLt
  have hx' := x'.isLt
  have e : x.toInt = (x.toNat : Int) - signInt x * 2 ^ 128 := by
    rw [toInt_eq_sign, signInt]; split <;> simp
  have e' : signInt x' = if 2 ^ 127 ≤ x'.toNat then 1 else 0 := by
    rw [signInt, sign_eq_decide]; simp
  have e0 : signInt x = 0 ∨ signInt x = 1 := by
    unfold signInt; split <;> simp
  unfold signOk
  rw [beq_iff_eq, e]
  split at e' <;> rw [e'] <;> rcases e0 with e0 | e0 <;> rw [e0] <;> constructor <;> intro hh <;> omega

/-- When the sign check holds, the new pattern reads as the exact sum. -/
theorem toInt_of_signOk (x x' : Value) (v c : Int)
    (h : (x.toNat : Int) + v = x'.toNat + c * 2 ^ 128) (ok : signOk x x' c = true) :
    x' = BitVec.ofInt 128 (x.toInt + v) := by
  apply BitVec.eq_of_toInt_eq
  have hr := (signOk_iff x x' v c h).mp ok
  have hb := toInt_bounds x'
  have e : x.toInt = (x.toNat : Int) - signInt x * 2 ^ 128 := by
    rw [toInt_eq_sign, signInt]; split <;> simp
  have e' : x'.toInt = (x'.toNat : Int) - signInt x' * 2 ^ 128 := by
    rw [toInt_eq_sign, signInt]; split <;> simp
  unfold signOk at ok
  rw [beq_iff_eq] at ok
  rw [BitVec.toInt_ofInt, Int.bmod_def]
  norm_num
  subst ok
  split <;> omega

end Sys2Proof.Machine
end

