-- ==== Sys2Proof/Laws/Decode.lean ====
section
/-! SUPPORT. What decoding does to each command word (spec/30_encoding.md R57, R59, R60), and that
decoding an encoded instruction gives it back. -/

namespace Sys2Proof

section
variable (a b : Value) (m s : Scalar)

@[simp] theorem decode_neg : decode ⟨0x01#8, a, b, m, s⟩ = .ok (.neg a) := by simp [decode]
@[simp] theorem decode_cmp : decode ⟨0x02#8, a, b, m, s⟩ = .ok (.cmp a b) := by simp [decode]
@[simp] theorem decode_cvtdv : decode ⟨0x03#8, a, b, m, s⟩ = .ok (.cvtdv s) := by simp [decode]
@[simp] theorem decode_cvtiv : decode ⟨0x04#8, a, b, m, s⟩ = .ok (.cvtiv s) := by simp [decode]
@[simp] theorem decode_cvtvd : decode ⟨0x05#8, a, b, m, s⟩ = .ok (.cvtvd a) := by simp [decode]
@[simp] theorem decode_cvtvi : decode ⟨0x06#8, a, b, m, s⟩ = .ok (.cvtvi a) := by simp [decode]
@[simp] theorem decode_ceil : decode ⟨0x07#8, a, b, m, s⟩ = .ok (.ceil a) := by simp [decode]
@[simp] theorem decode_addmult : decode ⟨0x08#8, a, b, m, s⟩ = .ok (.addmult a b m) := by
  simp [decode]
@[simp] theorem decode_add : decode ⟨0x09#8, a, b, m, s⟩ = .ok (.add a b) := by simp [decode]
@[simp] theorem decode_sub : decode ⟨0x0A#8, a, b, m, s⟩ = .ok (.sub a b) := by simp [decode]
@[simp] theorem decode_enc : decode ⟨0x0B#8, a, b, m, s⟩ = .ok (.enc a) := by simp [decode]
@[simp] theorem decode_dec : decode ⟨0x0C#8, a, b, m, s⟩ = .ok .dec := by simp [decode]

end

/-- Decoding the command of an instruction gives the instruction back. -/
theorem decode_encode (i : Instr) : decode (encode i) = .ok i := by
  cases i <;> simp [encode]

/-- The command of an instruction is well formed. -/
theorem wellFormed_encode (i : Instr) : (encode i).wellFormed = true := by
  cases i <;> (simp only [encode, Command.wellFormed]; decide)

/-- The reserved bits are checked first (R60). -/
theorem decode_of_res (c : Command) (h : c.word.extractLsb' 4 4 ≠ 0) :
    decode c = .error .reservedBits := by
  simp only [decode, if_pos h]

/-- The edges a decoded command waits (R127). -/
theorem waitEdges_of_stream {c : Command} {i : Instr} (h : decode c = .ok i)
    (hi : i.usesStream = true) : Config.waitEdges c = Config.extraEdges c := by
  simp [Config.waitEdges, h, hi]

theorem waitEdges_of_computed {c : Command} {i : Instr} (h : decode c = .ok i)
    (hi : i.usesStream = false) :
    Config.waitEdges c = Config.latMinusOne + Config.extraEdges c := by
  simp [Config.waitEdges, h, hi]

end Sys2Proof
end

