-- ==== Sys2Proof/Laws/PerInstr.lean ====
section
/-! SUPPORT. What holds of every instruction as syntax, one lemma per constructor: its command is well
formed and decodes back to it (spec/30_encoding.md R57, R66). -/

namespace Sys2Proof.Laws.Codec

/-- The command of an instruction is well formed and decodes to the instruction. -/
def Statement (i : Instr) : Prop := (encode i).wellFormed = true ∧ decode (encode i) = .ok i

theorem neg (a : Value) : Statement (.neg a) := ⟨wellFormed_encode _, decode_encode _⟩
theorem cmp (a b : Value) : Statement (.cmp a b) := ⟨wellFormed_encode _, decode_encode _⟩
theorem cvtdv (s : Scalar) : Statement (.cvtdv s) := ⟨wellFormed_encode _, decode_encode _⟩
theorem cvtiv (s : Scalar) : Statement (.cvtiv s) := ⟨wellFormed_encode _, decode_encode _⟩
theorem cvtvd (a : Value) : Statement (.cvtvd a) := ⟨wellFormed_encode _, decode_encode _⟩
theorem cvtvi (a : Value) : Statement (.cvtvi a) := ⟨wellFormed_encode _, decode_encode _⟩
theorem ceil (a : Value) : Statement (.ceil a) := ⟨wellFormed_encode _, decode_encode _⟩
theorem addmult (a b : Value) (m : Scalar) : Statement (.addmult a b m) :=
  ⟨wellFormed_encode _, decode_encode _⟩
theorem add (a b : Value) : Statement (.add a b) := ⟨wellFormed_encode _, decode_encode _⟩
theorem sub (a b : Value) : Statement (.sub a b) := ⟨wellFormed_encode _, decode_encode _⟩
theorem enc (a : Value) : Statement (.enc a) := ⟨wellFormed_encode _, decode_encode _⟩
theorem dec : Statement .dec := ⟨wellFormed_encode _, decode_encode _⟩

end Sys2Proof.Laws.Codec
end

