-- ==== Sys2Proof/Laws/Response.lean ====
section
/-! SUPPORT. The responses a command can give are well formed (spec/30_encoding.md R63 to R65;
spec/60_exceptions.md R110, R112), and the fields a stream command has moved, one more at a time
(spec/46_serdes.md R99, R100). -/

namespace Sys2Proof.Machine

/-! ## Responses -/

theorem Response.wellFormed_none : Response.none.WellFormed := ⟨by decide, by decide, by decide⟩

theorem Response.wellFormed_error (c : Cause) : (Response.error c).WellFormed := by
  cases c <;> exact ⟨by decide, by decide, by decide⟩

theorem Response.wellFormed_okR (r : Value) : (Response.okR r).WellFormed :=
  ⟨rfl, by show (0 : BitVec 2) ≠ 2; decide, fun h => absurd rfl h⟩

theorem Response.wellFormed_okQ (q : Scalar) : (Response.okQ q).WellFormed :=
  ⟨rfl, by show (0 : BitVec 2) ≠ 2; decide, fun h => absurd rfl h⟩

theorem Response.wellFormed_okCr (c : CmpResult) : (Response.okCr c.code).WellFormed :=
  ⟨rfl, by cases c <;> decide, fun h => absurd rfl h⟩

theorem Response.wellFormed_okNothing : Response.okNothing.WellFormed :=
  ⟨by decide, by decide, by decide⟩

theorem Response.wellFormed_ofR (e : Except Cause Value) : (Response.ofR e).WellFormed := by
  cases e
  · exact Response.wellFormed_error _
  · exact Response.wellFormed_okR _

theorem Response.wellFormed_ofQ (e : Except Cause Scalar) : (Response.ofQ e).WellFormed := by
  cases e
  · exact Response.wellFormed_error _
  · exact Response.wellFormed_okQ _

/-! ## The fields moved -/

theorem okWrites_succ (a : Value) (k : Nat) :
    okWrites a (k + 1) = okWrites a k ++ [.write (fieldOf a k) true] := by
  simp [okWrites, List.range_succ]

theorem okReads_succ (a : Value) (k : Nat) :
    okReads a (k + 1) = okReads a k ++ [.read (some (fieldOf a k))] := by
  simp [okReads, List.range_succ]

/-- The field just written into the buffer is the field of its value. -/
theorem fieldOf_put (b : ReadBuf) (v : Limb) {k : Nat} (hk : k < 4) :
    fieldOf (b.put k v).value k = v := by
  obtain rfl | rfl | rfl | rfl : k = 0 ∨ k = 1 ∨ k = 2 ∨ k = 3 := by omega
  all_goals simp [fieldOf, ReadBuf.put, ReadBuf.value]

/-- The earlier fields are not changed. -/
theorem fieldOf_put_of_lt (b : ReadBuf) (v : Limb) {k n : Nat} (hk : k < 4) (h : n < k) :
    fieldOf (b.put k v).value n = fieldOf b.value n := by
  obtain ⟨rfl, rfl⟩ | ⟨hn, hk⟩ | ⟨hn, rfl⟩ : (k = 1 ∧ n = 0) ∨ (n ≤ 1 ∧ k = 2) ∨ (n ≤ 2 ∧ k = 3) := by
    omega
  · simp [fieldOf, ReadBuf.put, ReadBuf.value]
  · subst hk
    interval_cases n <;> simp [fieldOf, ReadBuf.put, ReadBuf.value]
  · interval_cases n <;> simp [fieldOf, ReadBuf.put, ReadBuf.value]

/-- Reading one more field into the buffer adds its transfer and keeps the earlier ones. -/
theorem okReads_put (b : ReadBuf) (v : Limb) {k : Nat} (hk : k < 4) :
    okReads (b.put k v).value (k + 1) = okReads b.value k ++ [.read (some v)] := by
  have h : okReads (b.put k v).value k = okReads b.value k :=
    List.map_congr_left fun n hn => by rw [fieldOf_put_of_lt b v hk (by simpa using hn)]
  rw [okReads_succ, fieldOf_put b v hk, h]

end Sys2Proof.Machine
end

