-- ==== Sys2Proof/Laws/State.lean ====
section
/-! SUPPORT. One lemma per field per update of the state, so that no later proof unfolds a record
update, and the pins of a state whose schedule is written out. -/

namespace Sys2Proof.Machine

section
variable (s : State)

/-! ### `State.resetEdge` -/

@[simp] theorem State.resetEdge_phase : (s.resetEdge).phase = .idle := rfl
@[simp] theorem State.resetEdge_cmd : (s.resetEdge).cmd = s.cmd := rfl
@[simp] theorem State.resetEdge_k : (s.resetEdge).k = 0 := rfl
@[simp] theorem State.resetEdge_buf : (s.resetEdge).buf = s.buf := rfl
@[simp] theorem State.resetEdge_rsp : (s.resetEdge).rsp = Response.none := rfl
@[simp] theorem State.resetEdge_call : (s.resetEdge).call = .none := rfl
@[simp] theorem State.resetEdge_responses : (s.resetEdge).responses = s.responses := rfl
@[simp] theorem State.resetEdge_transfers : (s.resetEdge).transfers = s.transfers := rfl
@[simp] theorem State.resetEdge_latency : (s.resetEdge).latency = 0 := rfl
@[simp] theorem State.resetEdge_inputs : (s.resetEdge).inputs = s.inputs := rfl
@[simp] theorem State.resetEdge_held : (s.resetEdge).held = s.held := rfl

/-! ### `State.accept` -/

@[simp] theorem State.accept_phase (c : Command) : (s.accept c).phase = .busy := rfl
@[simp] theorem State.accept_cmd (c : Command) : (s.accept c).cmd = c := rfl
@[simp] theorem State.accept_k (c : Command) : (s.accept c).k = 0 := rfl
@[simp] theorem State.accept_buf (c : Command) : (s.accept c).buf = s.buf := rfl
@[simp] theorem State.accept_rsp (c : Command) : (s.accept c).rsp = s.rsp := rfl
@[simp] theorem State.accept_call (c : Command) : (s.accept c).call = .none := rfl
@[simp] theorem State.accept_responses (c : Command) : (s.accept c).responses = s.responses := rfl
@[simp] theorem State.accept_transfers (c : Command) : (s.accept c).transfers = s.transfers := rfl
@[simp] theorem State.accept_latency (c : Command) : (s.accept c).latency = Config.waitEdges c := rfl
@[simp] theorem State.accept_inputs (c : Command) : (s.accept c).inputs = s.inputs := rfl
@[simp] theorem State.accept_held (c : Command) : (s.accept c).held = s.held := rfl

/-! ### `State.present` -/

@[simp] theorem State.present_phase (r : Response) : (s.present r).phase = .resp := rfl
@[simp] theorem State.present_cmd (r : Response) : (s.present r).cmd = s.cmd := rfl
@[simp] theorem State.present_k (r : Response) : (s.present r).k = s.k := rfl
@[simp] theorem State.present_buf (r : Response) : (s.present r).buf = s.buf := rfl
@[simp] theorem State.present_rsp (r : Response) : (s.present r).rsp = r := rfl
@[simp] theorem State.present_call (r : Response) : (s.present r).call = s.call := rfl
@[simp] theorem State.present_responses (r : Response) : (s.present r).responses = s.responses := rfl
@[simp] theorem State.present_transfers (r : Response) : (s.present r).transfers = s.transfers := rfl
@[simp] theorem State.present_latency (r : Response) : (s.present r).latency = s.latency := rfl
@[simp] theorem State.present_inputs (r : Response) : (s.present r).inputs = s.inputs := rfl
@[simp] theorem State.present_held (r : Response) : (s.present r).held = s.held := rfl

/-! ### `State.take` -/

@[simp] theorem State.take_phase : (s.take).phase = .idle := rfl
@[simp] theorem State.take_cmd : (s.take).cmd = s.cmd := rfl
@[simp] theorem State.take_k : (s.take).k = s.k := rfl
@[simp] theorem State.take_buf : (s.take).buf = s.buf := rfl
@[simp] theorem State.take_rsp : (s.take).rsp = Response.none := rfl
@[simp] theorem State.take_call : (s.take).call = s.call := rfl
@[simp] theorem State.take_responses : (s.take).responses = s.responses ++ [s.rsp] := rfl
@[simp] theorem State.take_transfers : (s.take).transfers = s.transfers := rfl
@[simp] theorem State.take_latency : (s.take).latency = s.latency := rfl
@[simp] theorem State.take_inputs : (s.take).inputs = s.inputs := rfl
@[simp] theorem State.take_held : (s.take).held = s.held := rfl

/-! ### `State.waitEdge` -/

@[simp] theorem State.waitEdge_phase (n : Nat) : (s.waitEdge n).phase = s.phase := rfl
@[simp] theorem State.waitEdge_cmd (n : Nat) : (s.waitEdge n).cmd = s.cmd := rfl
@[simp] theorem State.waitEdge_k (n : Nat) : (s.waitEdge n).k = s.k := rfl
@[simp] theorem State.waitEdge_buf (n : Nat) : (s.waitEdge n).buf = s.buf := rfl
@[simp] theorem State.waitEdge_rsp (n : Nat) : (s.waitEdge n).rsp = s.rsp := rfl
@[simp] theorem State.waitEdge_call (n : Nat) : (s.waitEdge n).call = s.call := rfl
@[simp] theorem State.waitEdge_responses (n : Nat) : (s.waitEdge n).responses = s.responses := rfl
@[simp] theorem State.waitEdge_transfers (n : Nat) : (s.waitEdge n).transfers = s.transfers := rfl
@[simp] theorem State.waitEdge_latency (n : Nat) : (s.waitEdge n).latency = n := rfl
@[simp] theorem State.waitEdge_inputs (n : Nat) : (s.waitEdge n).inputs = s.inputs := rfl
@[simp] theorem State.waitEdge_held (n : Nat) : (s.waitEdge n).held = s.held := rfl

/-! ### `State.endEdge` -/

@[simp] theorem State.endEdge_phase (t : State) : (s.endEdge t).phase = t.phase := rfl
@[simp] theorem State.endEdge_cmd (t : State) : (s.endEdge t).cmd = t.cmd := rfl
@[simp] theorem State.endEdge_k (t : State) : (s.endEdge t).k = t.k := rfl
@[simp] theorem State.endEdge_buf (t : State) : (s.endEdge t).buf = t.buf := rfl
@[simp] theorem State.endEdge_rsp (t : State) : (s.endEdge t).rsp = t.rsp := rfl
@[simp] theorem State.endEdge_call (t : State) : (s.endEdge t).call = t.call := rfl
@[simp] theorem State.endEdge_responses (t : State) : (s.endEdge t).responses = t.responses := rfl
@[simp] theorem State.endEdge_transfers (t : State) : (s.endEdge t).transfers = t.transfers := rfl
@[simp] theorem State.endEdge_latency (t : State) : (s.endEdge t).latency = t.latency := rfl
@[simp] theorem State.endEdge_inputs (t : State) : (s.endEdge t).inputs = s.inputs.tail := rfl
@[simp] theorem State.endEdge_held (t : State) : (s.endEdge t).held = s.holdNext := rfl

/-! ### `State.countField` -/

@[simp] theorem State.countField_phase : (s.countField).phase = s.phase := rfl
@[simp] theorem State.countField_cmd : (s.countField).cmd = s.cmd := rfl
@[simp] theorem State.countField_k : (s.countField).k = s.k + 1 := rfl
@[simp] theorem State.countField_buf : (s.countField).buf = s.buf := rfl
@[simp] theorem State.countField_rsp : (s.countField).rsp = s.rsp := rfl
@[simp] theorem State.countField_call : (s.countField).call = s.call := rfl
@[simp] theorem State.countField_responses : (s.countField).responses = s.responses := rfl
@[simp] theorem State.countField_transfers : (s.countField).transfers = s.transfers := rfl
@[simp] theorem State.countField_latency : (s.countField).latency = s.latency := rfl
@[simp] theorem State.countField_inputs : (s.countField).inputs = s.inputs := rfl
@[simp] theorem State.countField_held : (s.countField).held = s.held := rfl

/-! ### `State.gatherField` -/

@[simp] theorem State.gatherField_phase (v : Limb) : (s.gatherField v).phase = s.phase := rfl
@[simp] theorem State.gatherField_cmd (v : Limb) : (s.gatherField v).cmd = s.cmd := rfl
@[simp] theorem State.gatherField_k (v : Limb) : (s.gatherField v).k = s.k + 1 := rfl
@[simp] theorem State.gatherField_buf (v : Limb) : (s.gatherField v).buf = s.buf.put s.k v := rfl
@[simp] theorem State.gatherField_rsp (v : Limb) : (s.gatherField v).rsp = s.rsp := rfl
@[simp] theorem State.gatherField_call (v : Limb) : (s.gatherField v).call = s.call := rfl
@[simp] theorem State.gatherField_responses (v : Limb) : (s.gatherField v).responses = s.responses := rfl
@[simp] theorem State.gatherField_transfers (v : Limb) : (s.gatherField v).transfers = s.transfers := rfl
@[simp] theorem State.gatherField_latency (v : Limb) : (s.gatherField v).latency = s.latency := rfl
@[simp] theorem State.gatherField_inputs (v : Limb) : (s.gatherField v).inputs = s.inputs := rfl
@[simp] theorem State.gatherField_held (v : Limb) : (s.gatherField v).held = s.held := rfl

/-! ### Pins and outputs -/

/-- `sq_width` is 32 in every state (R68). -/
@[simp] theorem State.outputs_sqWidth : s.outputs.sqWidth = 32 := rfl

/-- The host must hold a command after an edge exactly when it presented it there and the block did not
accept it (R122). -/
theorem State.holdNext_eq_some_iff (c : Command) :
    s.holdNext = some c ↔ s.pins.cmdValid = true ∧ s.pins.cmd = c ∧ s.cmdReady = false := by
  unfold State.holdNext
  cases s.pins.cmdValid <;> cases s.cmdReady <;> simp

@[simp] theorem State.pins_cons (s : State) (p : Pins) (rest : List Pins)
    (h : s.inputs = p :: rest) : s.pins = p := by
  simp [State.pins, h]

theorem State.pins_nil (s : State) (h : s.inputs = []) : s.pins = Pins.quiet := by
  simp [State.pins, h]

end

end Sys2Proof.Machine
end

