-- ==== Sys2Proof/Laws/Stream.lean ====
section
/-! SUPPORT. Everything one edge of a stream call, of an ENC and of a DEC can do
(spec/46_serdes.md R99, R100; spec/70_reset_and_hazards.md R124). -/

namespace Sys2Proof.Machine

/-- The call completes at this edge: its answer is awaited and `sa_valid = 1`. -/
def State.answeredNow (s : State) : Prop := s.call = .awaiting ∧ s.pins.saValid = true

/-- The call is over and recorded. -/
def State.endCall (s : State) (p : Primitive) : State :=
  { s with call := .none, transfers := s.transfers ++ [p.transfer s.pins.answer] }

@[simp] theorem State.endCall_phase (s : State) (p : Primitive) : (s.endCall p).phase = s.phase := rfl
@[simp] theorem State.endCall_cmd (s : State) (p : Primitive) : (s.endCall p).cmd = s.cmd := rfl
@[simp] theorem State.endCall_k (s : State) (p : Primitive) : (s.endCall p).k = s.k := rfl
@[simp] theorem State.endCall_buf (s : State) (p : Primitive) : (s.endCall p).buf = s.buf := rfl
@[simp] theorem State.endCall_rsp (s : State) (p : Primitive) : (s.endCall p).rsp = s.rsp := rfl
@[simp] theorem State.endCall_call (s : State) (p : Primitive) : (s.endCall p).call = .none := rfl
@[simp] theorem State.endCall_responses (s : State) (p : Primitive) :
    (s.endCall p).responses = s.responses := rfl
@[simp] theorem State.endCall_transfers (s : State) (p : Primitive) :
    (s.endCall p).transfers = s.transfers ++ [p.transfer s.pins.answer] := rfl
@[simp] theorem State.endCall_latency (s : State) (p : Primitive) :
    (s.endCall p).latency = s.latency := rfl
@[simp] theorem State.endCall_inputs (s : State) (p : Primitive) :
    (s.endCall p).inputs = s.inputs := rfl
@[simp] theorem State.endCall_held (s : State) (p : Primitive) : (s.endCall p).held = s.held := rfl

/-- The call state after an edge at which the call does not complete. -/
def State.nextCall (s : State) : StreamCall :=
  match s.call with
  | .none => .requested
  | .requested => if s.pins.sqReady then .awaiting else .requested
  | .awaiting => .awaiting

/-- One edge of a stream call: it completes with the pins' answer, or only its state moves on. -/
theorem streamCall_cases (p : Primitive) (s : State) :
    (s.answeredNow ∧ streamCall p s = .answered s.pins.answer (s.endCall p)) ∨
    (¬s.answeredNow ∧ streamCall p s = .pending { s with call := s.nextCall }) := by
  unfold streamCall State.answeredNow State.endCall State.nextCall
  rcases s with ⟨phase, cmd, k, buf, rsp, call, responses, transfers, latency, inputs, held⟩
  cases call
  · simp
  · right; simp; split <;> rfl
  · dsimp only; split <;> simp_all

/-- One edge of ENC. -/
theorem execEnc_cases (a : Value) (s : State) :
    (¬s.answeredNow ∧ execEnc a s = .next { s with call := s.nextCall }) ∨
    (s.answeredNow ∧ s.pins.answer = none ∧
      execEnc a s = .next ((s.endCall (.write (fieldOf a s.k))).present (.error .ioWr))) ∨
    (s.answeredNow ∧ (∃ v, s.pins.answer = some v) ∧ s.k < 3 ∧
      execEnc a s = .next (s.endCall (.write (fieldOf a s.k))).countField) ∨
    (s.answeredNow ∧ (∃ v, s.pins.answer = some v) ∧ 3 ≤ s.k ∧
      execEnc a s =
        .next ((s.endCall (.write (fieldOf a s.k))).countField.present .okNothing)) := by
  unfold execEnc
  rcases streamCall_cases (.write (fieldOf a s.k)) s with ⟨ha, hc⟩ | ⟨ha, hc⟩
  · right
    rw [hc]
    rcases hp : s.pins.answer with _ | v
    · left; exact ⟨ha, rfl, rfl⟩
    · right
      by_cases hk : s.k < 3
      · left; refine ⟨ha, ⟨v, rfl⟩, hk, ?_⟩
        simp [Config.nFields, show s.k + 1 < 4 by omega]
      · right; refine ⟨ha, ⟨v, rfl⟩, by omega, ?_⟩
        simp [Config.nFields, show ¬s.k + 1 < 4 by omega]
  · left; rw [hc]; exact ⟨ha, rfl⟩

/-- One edge of DEC. -/
theorem execDec_cases (s : State) :
    (¬s.answeredNow ∧ execDec s = .next { s with call := s.nextCall }) ∨
    (s.answeredNow ∧ s.pins.answer = none ∧
      execDec s = .next ((s.endCall .read).present (.error .ioRd))) ∨
    (∃ v, s.answeredNow ∧ s.pins.answer = some v ∧ s.k < 3 ∧
      execDec s = .next ((s.endCall .read).gatherField v)) ∨
    (∃ v, s.answeredNow ∧ s.pins.answer = some v ∧ 3 ≤ s.k ∧
      execDec s = .next (((s.endCall .read).gatherField v).present
        (.okR (s.buf.put s.k v).value))) := by
  unfold execDec
  rcases streamCall_cases .read s with ⟨ha, hc⟩ | ⟨ha, hc⟩
  · right
    rw [hc]
    rcases hp : s.pins.answer with _ | v
    · left; exact ⟨ha, rfl, rfl⟩
    · right
      by_cases hk : s.k < 3
      · left; refine ⟨v, ha, rfl, hk, ?_⟩
        simp [Config.nFields, show s.k + 1 < 4 by omega]
      · right; refine ⟨v, ha, rfl, by omega, ?_⟩
        simp [Config.nFields, show ¬s.k + 1 < 4 by omega]
  · left; rw [hc]; exact ⟨ha, rfl⟩

end Sys2Proof.Machine
end

