-- ==== Sys2Proof/Laws/Step.lean ====
section
/-! SUPPORT. Everything an instruction, an edge and a step can do, said once
(spec/70_reset_and_hazards.md R119 to R124, R127), and runs of several steps. -/

namespace Sys2Proof.Machine

/-! ## One instruction -/

/-- A command that does not use the stream presents its computed response and does nothing else. -/
theorem exec_of_computed {i : Instr} {r : Response} (h : computed i = some r) (s : State) :
    exec i s = .next (s.present r) := by
  cases i <;> simp only [computed, Option.some.injEq, reduceCtorEq] at h <;> subst h <;> rfl

theorem computed_of_not_stream {i : Instr} (h : i.usesStream = false) :
    ∃ r, computed i = some r := by
  cases i <;> first | exact ⟨_, rfl⟩ | cases h

theorem not_stream_of_computed {i : Instr} {r : Response} (h : computed i = some r) :
    i.usesStream = false := by
  cases i <;> first | rfl | cases h

theorem exec_enc (a : Value) (s : State) : exec (.enc a) s = execEnc a s := rfl

theorem exec_dec (s : State) : exec .dec s = execDec s := rfl

/-- Every instruction answers a next state, in every state. -/
theorem exec_next (i : Instr) (s : State) : ∃ t, exec i s = .next t := by
  cases hi : i.usesStream
  · obtain ⟨r, hr⟩ := computed_of_not_stream hi
    exact ⟨_, exec_of_computed hr s⟩
  · cases i with
    | enc a =>
      rcases execEnc_cases a s with ⟨_, h⟩ | ⟨_, _, h⟩ | ⟨_, _, _, h⟩ | ⟨_, _, _, h⟩ <;>
        exact ⟨_, h⟩
    | dec =>
      rcases execDec_cases s with ⟨_, h⟩ | ⟨_, _, h⟩ | ⟨_, _, _, _, h⟩ | ⟨_, _, _, _, h⟩ <;>
        exact ⟨_, h⟩
    | _ => cases hi

/-! ## One edge -/

/-- An edge in BUSY: one more edge of the latency, the latched instruction, or its ILL response. -/
theorem busyEdge_cases (s : State) :
    (∃ left, s.latency = left + 1 ∧ busyEdge s = .next (s.waitEdge left)) ∨
    (s.latency = 0 ∧ ∃ i, decode s.cmd = .ok i ∧ busyEdge s = exec i s) ∨
    (s.latency = 0 ∧ ∃ e, decode s.cmd = .error e ∧
      busyEdge s = .next (s.present (.error (rejectCause e)))) := by
  unfold busyEdge
  cases hl : s.latency with
  | succ left => left; exact ⟨left, rfl, rfl⟩
  | zero =>
    right
    cases hd : decode s.cmd with
    | ok i => left; exact ⟨rfl, i, rfl, rfl⟩
    | error e => right; exact ⟨rfl, e, rfl, rfl⟩

/-- An edge: reset, an acceptance or an idle edge, an edge in BUSY, a response taken or still
presented. -/
theorem edge_cases (s : State) :
    (s.pins.rst = true ∧ edge s = .next s.resetEdge) ∨
    (s.pins.rst = false ∧ s.phase = .idle ∧ s.pins.cmdValid = true ∧
      edge s = .next (s.accept s.pins.cmd)) ∨
    (s.pins.rst = false ∧ s.phase = .idle ∧ s.pins.cmdValid = false ∧ edge s = .next s) ∨
    (s.pins.rst = false ∧ s.phase = .busy ∧ edge s = busyEdge s) ∨
    (s.pins.rst = false ∧ s.phase = .resp ∧ s.pins.rspReady = true ∧ edge s = .next s.take) ∨
    (s.pins.rst = false ∧ s.phase = .resp ∧ s.pins.rspReady = false ∧ edge s = .next s) := by
  unfold edge
  cases hr : s.pins.rst <;> cases hp : s.phase <;> simp
  · cases s.pins.cmdValid <;> simp
  · cases s.pins.rspReady <;> simp

/-- The block itself never stops. -/
theorem edge_next (s : State) : ∃ t, edge s = .next t := by
  rcases edge_cases s with ⟨_, h⟩ | ⟨_, _, _, h⟩ | ⟨_, _, _, h⟩ | ⟨_, _, h⟩ | ⟨_, _, _, h⟩ |
    ⟨_, _, _, h⟩
  iterate 3 exact ⟨_, h⟩
  · rw [h]
    rcases busyEdge_cases s with ⟨_, _, h⟩ | ⟨_, i, _, h⟩ | ⟨_, _, _, h⟩
    · exact ⟨_, h⟩
    · rw [h]; exact exec_next i s
    · exact ⟨_, h⟩
  iterate 2 exact ⟨_, h⟩

/-! ## One step -/

/-- A step answers a next state exactly when the host holds its command, and it is the edge's. -/
theorem step_next_iff (s t : State) :
    step s = .next t ↔ s.holdBroken = false ∧ ∃ u, edge s = .next u ∧ t = s.endEdge u := by
  unfold step
  obtain ⟨u, hu⟩ := edge_next s
  cases s.holdBroken <;> simp [hu, eq_comm]

theorem step_of_edge {s u : State} (hh : s.holdBroken = false) (h : edge s = .next u) :
    step s = .next (s.endEdge u) :=
  (step_next_iff _ _).mpr ⟨hh, u, h, rfl⟩

/-- A host with nothing to hold does not break its duty. -/
theorem holdBroken_of_held_none {s : State} (h : s.held = none) : s.holdBroken = false := by
  simp [State.holdBroken, h]

/-! ## Runs -/

@[simp] theorem run_zero (s : State) : run 0 s = .next s := rfl

theorem run_succ_of_step {s t : State} (h : step s = .next t) (n : Nat) :
    run (n + 1) s = run n t := by
  simp [run, h]

/-- A run of several steps begins with one step. -/
theorem run_succ_next {n : Nat} {s t : State} (h : run (n + 1) s = .next t) :
    ∃ u, step s = .next u ∧ run n u = .next t := by
  simp only [run] at h
  split at h
  · exact ⟨_, ‹_›, h⟩
  · cases h
  · cases h

theorem run_add {n m : Nat} {s u : State} (h : run n s = .next u) : run (n + m) s = run m u := by
  induction n generalizing s with
  | zero => cases h; simp
  | succ n ih =>
    obtain ⟨v, hv, hr⟩ := run_succ_next h
    rw [Nat.add_right_comm, run_succ_of_step hv]
    exact ih hr

/-- One edge of a BUSY command's latency, with quiet pins. -/
theorem step_wait {s : State} {n : Nat} {rest : List Pins} (hp : s.phase = .busy)
    (hl : s.latency = n + 1) (hi : s.inputs = Pins.quiet :: rest) (hh : s.held = none) :
    step s = .next { s with latency := n, inputs := rest } := by
  simp [step, State.holdBroken, hh, edge, State.pins, hi, Pins.quiet, hp, busyEdge, hl,
    State.waitEdge, State.endEdge, State.holdNext]

/-- A BUSY command waits out its latency over quiet edges. -/
theorem run_wait {n : Nat} {s : State} {rest : List Pins} (hp : s.phase = .busy)
    (hl : s.latency = n) (hi : s.inputs = List.replicate n Pins.quiet ++ rest)
    (hh : s.held = none) : run n s = .next { s with latency := 0, inputs := rest } := by
  induction n generalizing s with
  | zero => subst hi; cases s; simp_all
  | succ n ih =>
    rw [run_succ_of_step (step_wait hp hl hi hh)]
    exact ih (s := { s with latency := n, inputs := _ }) hp rfl rfl hh

/-- The model's run is the host interface's. -/
theorem run_eq_core (n : Nat) (s : State) : run n s = Host.Core.run core n s := by
  induction n generalizing s with
  | zero => rfl
  | succ n ih =>
    have hc : core.step s = step s := rfl
    simp only [run, Host.Core.run, hc]
    cases hs : step s with
    | next t => exact ih t
    | fault f => rfl
    | refused r => rfl

end Sys2Proof.Machine
end

