-- ==== Sys2Proof/Tests/Slice0.lean ====
section
/-! SUPPORT. Tests whose expected results are the spec's own examples (spec/95_test_vectors.md and the
worked example of each instruction's rule), and a witness for the hypotheses of every statement. -/

namespace Sys2Proof.Tests

open Sys2Proof.Machine

/-! ## Helpers -/

/-- The state an outcome goes on with. -/
def nextOf : Host.Outcome State Fault Refusal → Option State
  | .next s => some s
  | .fault _ => none
  | .refused _ => none

/-- The response after one edge of an instruction from the reset state. -/
def respOf (i : Instr) : Option Response := (nextOf (exec i State.reset)).map State.rsp

/-- A BUSY state whose command's latency has passed, with the pins of the coming edge. -/
def atBusy (c : Command) (p : Pins) : State :=
  { State.reset with phase := .busy, cmd := c, inputs := [p] }

/-- Such a state whose stream call number `k` awaits its answer. -/
def atAnswer (c : Command) (k : Nat) (p : Pins) : State :=
  { atBusy c p with k := k, call := .awaiting }

/-- Pins at which the collaborator answers `ok` with data `v`. -/
def okPins (v : Limb) : Pins := { Pins.quiet with saValid := true, saOk := true, saRdata := v }

/-- Pins at which the collaborator answers `fail`. -/
def failPins : Pins := { Pins.quiet with saValid := true }

/-- −1.5 and 1.5. -/
def minusThreeHalves : Value := limbs 0xffffffff 0xfffffffe 0x80000000 0
def threeHalves : Value := limbs 0 1 0x80000000 0

/-! ## WellFormed: a term for each check, which the check refuses -/

theorem test_reserved_bits_ill_formed :
    CmdWord.resClear 0x12 = false ∧ (⟨0x12, 0, 0, 0, 0⟩ : Command).wellFormed = false := by decide

theorem test_reserved_opcodes_ill_formed :
    [0x00, 0x0D, 0x0E, 0x0F].map (fun w => CmdWord.opAssigned w) = [false, false, false, false] ∧
    (⟨0x0D, 0, 0, 0, 0⟩ : Command).wellFormed = false := by decide

theorem test_add_well_formed : (⟨0x09, 1, 2, 3, 4⟩ : Command).wellFormed = true := by decide

/-! ## Decoding: words written out bit by bit from R54 and R57 -/

theorem test_decode_neg : decode ⟨0b0000_0001, 5, 6, 7, 8⟩ = .ok (.neg 5) := by simp [decode]
theorem test_decode_cmp : decode ⟨0b0000_0010, 5, 6, 7, 8⟩ = .ok (.cmp 5 6) := by simp [decode]
theorem test_decode_cvtdv : decode ⟨0b0000_0011, 5, 6, 7, 8⟩ = .ok (.cvtdv 8) := by simp [decode]
theorem test_decode_cvtiv : decode ⟨0b0000_0100, 5, 6, 7, 8⟩ = .ok (.cvtiv 8) := by simp [decode]
theorem test_decode_cvtvd : decode ⟨0b0000_0101, 5, 6, 7, 8⟩ = .ok (.cvtvd 5) := by simp [decode]
theorem test_decode_cvtvi : decode ⟨0b0000_0110, 5, 6, 7, 8⟩ = .ok (.cvtvi 5) := by simp [decode]
theorem test_decode_ceil : decode ⟨0b0000_0111, 5, 6, 7, 8⟩ = .ok (.ceil 5) := by simp [decode]
theorem test_decode_addmult : decode ⟨0b0000_1000, 5, 6, 7, 8⟩ = .ok (.addmult 5 6 7) := by
  simp [decode]
theorem test_decode_add : decode ⟨0b0000_1001, 5, 6, 7, 8⟩ = .ok (.add 5 6) := by simp [decode]
theorem test_decode_sub : decode ⟨0b0000_1010, 5, 6, 7, 8⟩ = .ok (.sub 5 6) := by simp [decode]
theorem test_decode_enc : decode ⟨0b0000_1011, 5, 6, 7, 8⟩ = .ok (.enc 5) := by simp [decode]
theorem test_decode_dec : decode ⟨0b0000_1100, 5, 6, 7, 8⟩ = .ok .dec := by simp [decode]

/-- L2.10: a command with both faults reports the reserved bits. -/
theorem test_decode_both_faults : decode ⟨0b0001_1110, 0, 0, 0, 0⟩ = .error .reservedBits := by
  simp [decode]

theorem test_decode_zero_word : decode ⟨0b0000_0000, 0, 0, 0, 0⟩ = .error .reservedOpcode := by
  simp [decode]

/-- The table numbers `CMD` from bit 0; operand bits above it are zero. -/
theorem test_table_word : decodeTableWord 8 0x09 = some (.add 0 0) := by decide

/-- Program 1, line 3 of spec/95: the encoding `08 / A / B / M / 0`. -/
theorem test_assemble_addmult :
    assemble (.addmult (.pattern (limbs 0 5 0 0)) (.pattern (limbs 0 0 0x40000000 0)) 3) =
      ⟨0x08, limbs 0 5 0 0, limbs 0 0 0x40000000 0, 3, 0⟩ := by decide

/-- Program 1, line 1 and R66: an integer operand is two's complement, a name is its pattern. -/
theorem test_assemble_names :
    assemble (.cvtiv (-7)) = ⟨0x04, 0, 0, 0, 0xFFFFFFFFFFFFFFF9⟩ ∧
    assemble (.enc .nameMin) = ⟨0x0B, limbs 0x80000000 0 0 1, 0, 0, 0⟩ := by decide

/-! ## Instructions: at most two tests each, from spec/95 -/

/-- L2.1. -/
theorem test_neg_rsv : respOf (.neg rsv) = some ⟨0b01, 0x1, 0, 0, 0⟩ := by decide
theorem test_neg_three_halves : respOf (.neg threeHalves) = some ⟨0, 0, minusThreeHalves, 0, 0⟩ := by
  decide

/-- L2.2: the limb decides as an unsigned number, after the sign. -/
theorem test_cmp_ilo_unsigned :
    respOf (.cmp (limbs 0xffffffff 0xffffffff 0 0) (limbs 0xffffffff 0xfffffffe 0 0)) =
      some ⟨0, 0, 0, 0, 0b01⟩ := by decide
theorem test_cmp_sign : respOf (.cmp (-1) valueZero) = some ⟨0, 0, 0, 0, 0b11⟩ := by decide

/-- L2.3: truncation toward zero, and a negative value with a fraction. -/
theorem test_cvtdv_negative_truncates :
    respOf (.cvtdv 0xBBE0000000000000) = some ⟨0, 0, 0, 0, 0⟩ := by decide +kernel
theorem test_cvtdv_minus_tenth :
    respOf (.cvtdv 0xBFB999999999999A) =
      some ⟨0, 0, limbs 0xffffffff 0xffffffff 0xe6666666 0x66666600, 0, 0⟩ := by decide +kernel

/-- L2.4. -/
theorem test_cvtiv_most_negative_magnitude :
    respOf (.cvtiv 0xFFFFFFFF00000001) = some ⟨0, 0, limbs 0xffffffff 1 0 0, 0, 0⟩ := by decide
theorem test_cvtiv_int64_min : respOf (.cvtiv 0x8000000000000000) = some ⟨0b01, 0x4, 0, 0, 0⟩ := by
  decide

/-- L2.5: the mode of this block, at a value where the modes differ, and the rounding up to 2^63. -/
theorem test_cvtvd_single_rounding :
    respOf (.cvtvd (limbs 0x00200000 1 0x80000000 0)) = some ⟨0, 0, 0, 0x4340000000000001, 0⟩ := by
  decide
theorem test_cvtvd_min : respOf (.cvtvd valueMin) = some ⟨0, 0, 0, 0xC3E0000000000000, 0⟩ := by decide

/-- L2.6: −2^31 − 0.5, where all four choices of the parameters are told apart. -/
theorem test_cvtvi_parameters :
    let a := limbs 0xffffffff 0x7fffffff 0x80000000 0
    valueToInt .trunc .w64 a = .ok 0xFFFFFFFF80000000 ∧
    valueToInt .trunc .w32 a = .ok 0xFFFFFFFF80000000 ∧
    valueToInt .floor .w64 a = .ok 0xFFFFFFFF7FFFFFFF ∧
    valueToInt .floor .w32 a = .error .v2iRange := by decide
/-- L2.6 and Program 5: the same under every choice of the parameters. -/
theorem test_cvtvi_five :
    [V2iRound.trunc, .floor].all (fun r => [V2iWidth.w32, .w64].all fun w =>
      valueToInt r w (limbs 0 5 0 0) = .ok 5 ∧ valueToInt r w rsv = .error .negRsv) = true := by
  decide

/-- L2.7. -/
theorem test_ceil_wraps_both_limbs :
    respOf (.ceil (limbs 0xffffffff 0xffffffff 0x80000000 0)) = some ⟨0, 0, 0, 0, 0⟩ := by decide
theorem test_ceil_overflow : respOf (.ceil valueMax) = some ⟨0b01, 0x5, 0, 0, 0⟩ := by decide

/-- L2.8. -/
theorem test_addmult_negative_operands :
    respOf (.addmult (limbs 0xffffffff 0xfffffffd 0 0) (limbs 0xffffffff 0xfffffffd 0x80000000 0)
      (-7)) = some ⟨0, 0, limbs 0 0xe 0x80000000 0, 0, 0⟩ := by decide
/-- Trace T4: the term `mhi·y.ihi` of the leftover carry. -/
theorem test_addmult_high_leftover :
    respOf (.addmult valueZero (limbs 1 0 0 0) 0x100000000) = some ⟨0b01, 0x9, 0, 0, 0⟩ := by decide

/-- E1, and trace T7. -/
theorem test_add_example :
    respOf (.add (limbs 0 0x7fff0000 0 0) (limbs 0 0x0000ffff 0 0)) =
      some ⟨0, 0, limbs 0 0x7fffffff 0 0, 0, 0⟩ := by decide
theorem test_add_reaches_rsv : respOf (.add valueMin (-1)) = some ⟨0b01, 0xA, 0, 0, 0⟩ := by decide

/-- E5, and L2.8. -/
theorem test_sub_crosses_zero :
    respOf (.sub (limbs 0 0x000fffff 0 0) (limbs 0 0x001fffff 0 0)) =
      some ⟨0, 0, limbs 0xffffffff 0xfff00000 0 0, 0, 0⟩ := by decide
theorem test_sub_low_overflow :
    respOf (.sub (-2) valueMax) = some ⟨0b01, 0x8, 0, 0, 0⟩ := by decide

/-- L2.9: the third field of ENC ONE fails. -/
theorem test_enc_fails :
    (nextOf (exec (.enc valueOne) (atAnswer ⟨0x0B, valueOne, 0, 0, 0⟩ 2 failPins))).map
      (fun t => (t.phase, t.rsp, t.transfers)) =
      some (.resp, ⟨0b10, 0xC, 0, 0, 0⟩, [.write 0 false]) := by decide
/-- L2.9: the second field of ENC ONE is 00000001. -/
theorem test_enc_second_field :
    (nextOf (exec (.enc valueOne) (atAnswer ⟨0x0B, valueOne, 0, 0, 0⟩ 1 (okPins 0)))).map
      (fun t => (t.phase, t.k, t.transfers)) = some (.busy, 2, [.write 1 true]) := by decide

/-- L2.9: DEC does not validate; the fields of RSV give RSV with ST = OK. -/
theorem test_dec_rsv :
    (nextOf (exec .dec { atAnswer ⟨0x0C, 0, 0, 0, 0⟩ 3 (okPins 0) with
      buf := ⟨0x80000000, 0, 0, 7⟩ })).map (fun t => (t.phase, t.rsp)) =
      some (.resp, ⟨0, 0, rsv, 0, 0⟩) := by decide
theorem test_dec_fails :
    (nextOf (exec .dec (atAnswer ⟨0x0C, 0, 0, 0, 0⟩ 2 failPins))).map
      (fun t => (t.phase, t.rsp, t.transfers)) =
      some (.resp, ⟨0b10, 0xD, 0, 0, 0⟩, [.read none]) := by decide

/-- R39: the image of −1.5 in L2.9. -/
theorem test_image :
    image minusThreeHalves =
      [0xff, 0xff, 0xff, 0xff, 0xff, 0xff, 0xff, 0xfe, 0x80, 0, 0, 0, 0, 0, 0, 0] := by decide

/-! ## Steps -/

/-- R122 and L2.10: an illegal command is accepted like any other. -/
theorem test_step_accepts_illegal :
    (nextOf (step { State.reset with inputs := [presentPins ⟨0x12, 0, 0, 0, 0⟩] })).map
      (fun t => (t.phase, t.cmd.word)) = some (.busy, 0x12) := by decide

/-- L2.10: 0x1E is answered ILL(ILL_RES). -/
theorem test_step_illegal :
    (nextOf (step (atBusy ⟨0x1E, 0, 0, 0, 0⟩ Pins.quiet))).map State.rsp =
      some ⟨0b11, 0xF, 0, 0, 0⟩ := by decide

/-- The first step after `withFetchWord` runs the placed command. -/
theorem test_fetch_word_runs :
    (nextOf (step (State.reset.withFetchWord 8 0x09))).map (fun t => (t.phase, t.rsp)) =
      some (.resp, ⟨0, 0, 0, 0, 0⟩) := by decide

/-- U16: a command that is dropped before it is accepted has no move. -/
theorem test_step_refuses_unheld :
    step { State.reset with held := some ⟨0x01, 0, 0, 0, 0⟩ } = .refused .commandNotHeld := rfl

/-! ## Witnesses: the hypotheses of each statement are met, at boundary values -/

/-- ReservedWordsAreRejected: both kinds, and the lowest and highest words of each. -/
theorem witness_reserved_words :
    decode ⟨0x10, 0, 0, 0, 0⟩ = .error .reservedBits ∧
    decode ⟨0xFF, 0, 0, 0, 0⟩ = .error .reservedBits ∧
    decode ⟨0x00, 0, 0, 0, 0⟩ = .error .reservedOpcode ∧
    decode ⟨0x0F, 0, 0, 0, 0⟩ = .error .reservedOpcode := by simp [decode]

/-- SuccessfulResultsAreRepresentable: each computation succeeds somewhere. -/
theorem witness_successes :
    negate valueMin = .ok valueMax ∧ doubleToValue 0 = .ok 0 ∧ intToValue 0 = .ok 0 ∧
    (representable valueMin = true ∧ ceiling valueMin = .ok (limbs 0x80000000 1 0 0)) ∧
    scaledAccumulate valueZero valueMin (-1) = .ok valueMax ∧
    addValues valueMax valueMin = .ok valueZero ∧ subValues valueZero valueMax = .ok valueMin := by
  decide +kernel

/-- Binary64Layout: a NaN, an infinity, the least subnormal, the least and greatest normal exponents. -/
theorem witness_binary64_classes :
    dbl 0x7FF0000000000001 = .nan ∧ dbl 0xFFF0000000000000 = .inf true ∧
    dbl 0x0000000000000001 = .finite false 1 ∧ dbl 0x8010000000000000 = .finite true (2 ^ 52) ∧
    dbl 0x7FE0000000000000 = .finite false (2 ^ 52 * 2 ^ 2045) := by decide +kernel

/-- RoundingIsNearestEven: a tie, in which another number of 53 bits is as near as the result. -/
theorem witness_rounding_tie :
    rne64 (2 ^ 53 + 1) = 2 ^ 53 ∧ (2 ^ 52 + 1 : ℕ) < 2 ^ 53 ∧
    |((2 ^ 53 : ℕ) : ℤ) - (2 ^ 53 + 1 : ℕ)| = |(((2 ^ 52 + 1) * 2 ^ 1 : ℕ) : ℤ) - (2 ^ 53 + 1 : ℕ)| ∧
    (2 ^ 53 : ℕ) ≠ (2 ^ 52 + 1) * 2 ^ 1 := by decide

/-- NegationClosedForm: both sides of its case split. -/
theorem witness_negation : valueMin ≠ rsv ∧ negate rsv = .error .negRsv := by decide

/-- CompareOrderLaws: a chain of three different values. -/
theorem witness_compare_chain :
    compareValues rsv valueMin ≠ .greater ∧ compareValues valueMin valueMax ≠ .greater ∧
    compareValues rsv valueMax = .less := by decide

/-- CvtdvResponse: each class of its input, and both sides of the range check. -/
theorem witness_cvtdv_classes :
    dbl 0x7FF8000000000000 = .nan ∧ dbl 0x7FF0000000000000 = .inf false ∧
    dbl 0x43E0000000000000 = .finite false (2 ^ 63 * 2 ^ 1074) ∧
    dbl 0xC3DFFFFFFFFFFFFF = .finite true ((2 ^ 63 - 2 ^ 10) * 2 ^ 1074) := by decide +kernel

/-- CvtvdResponse: RSV, another operand, and a finite double; and a tie between two doubles. -/
theorem witness_cvtvd :
    rsv = rsv ∧ valueMax ≠ rsv ∧ dbl 0x3FF0000000000000 = .finite false (2 ^ 1074) ∧
    valueToDouble .correctRne (limbs 0x00200000 1 0 0) = .ok 0x4340000000000000 := by decide +kernel

/-- CvtviCompletesInRange: the least and the greatest value of its range, and an operand other than
RSV. -/
theorem witness_cvtvi_range :
    val (limbs 0xffffffff 0x80000000 0 0) = -2 ^ 31 ∧ val (limbs 0 0x7fffffff 0 0) = 2 ^ 31 - 1 ∧
    valueMin ≠ rsv := by
  have h1 : (limbs 0xffffffff 0x80000000 0 0).toInt = -2 ^ 95 := by decide
  have h2 : (limbs 0 0x7fffffff 0 0).toInt = (2 ^ 31 - 1) * 2 ^ 64 := by decide
  refine ⟨?_, ?_, by decide⟩
  · simp only [val, h1]; norm_num
  · simp only [val, h2]; norm_num

/-- CeilLaws: a success, one on an integer, and one on a representable operand. -/
theorem witness_ceil :
    ceiling (limbs 0x7fffffff 0xfffffffe 0 1) = .ok (limbs 0x7fffffff 0xffffffff 0 0) ∧
    ceiling rsv = .ok rsv ∧ rsv.toInt % 2 ^ 64 = 0 ∧
    representable (limbs 0x7fffffff 0xfffffffe 0 1) = true := by decide

/-- AddmultResponse: a success, and each failing case of its chain. -/
theorem witness_addmult_cases :
    scaledAccumulate valueOne valueOne 1 = .ok (limbs 0 2 0 0) ∧
    scaledAccumulate valueZero rsv (-2 ^ 63) = .error .negRsv ∧
    scaledAccumulate valueZero valueOne (-2 ^ 63) = .error .amMmin ∧
    scaledAccumulate valueZero valueOne (2 ^ 63 - 2 ^ 31) = .error .amSplit ∧
    scaledAccumulate valueMax 1 (-2 ^ 32 + 1) = .error .amLow ∧
    scaledAccumulate valueZero (limbs 0 0x80000000 0 0) (2 ^ 32) = .error .amHigh ∧
    scaledAccumulate valueMin 1 (-1) = .error .amRsv := by decide +kernel

/-- CanonAndSplit: each clause at the ends of its range. -/
theorem witness_canon_split :
    canon rsv (-2 ^ 63) = .error .negRsv ∧ canon valueOne (-2 ^ 63) = .error .amMmin ∧
    canon valueMin (2 ^ 63 - 1) = .ok (valueMax, -(2 ^ 63 - 1)) ∧
    splitMult (2 ^ 63 - 2 ^ 31) = .error .amSplit ∧
    splitMult (2 ^ 63 - 2 ^ 31 - 1) = .ok (2 ^ 31 - 1, 2 ^ 31 - 1) ∧
    splitMult (-2 ^ 63 + 1) = .ok (-2 ^ 31, 1) := by decide +kernel

/-- HighPassIsExact: a success that leaves `flo` alone. -/
theorem witness_high_pass : highPass 5 1 7 = .ok (limbs 0 0 7 5) := by decide +kernel

/-- AccumulatorFitsSixtyFourBits: both ends of the ranges reach the bounds. -/
theorem witness_accumulator :
    stepSum 0 (-2 ^ 31 * ((0xffffffff : Limb).toNat : ℤ)) (-2 ^ 31) = -2 ^ 63 ∧
    stepSum 0xffffffff ((2 ^ 31 - 1) * ((0xffffffff : Limb).toNat : ℤ)) (2 ^ 31 - 1) = 2 ^ 63 - 1 ∧
    (0x7fffffff : Limb).toNat ≤ 0x7fffffff := by decide

/-- AdderLaws: operands for each law. -/
theorem witness_adder_laws :
    (representable valueMin = true ∧ representable valueMax = true) ∧
    (addValues valueOne valueOne = .ok (limbs 0 2 0 0) ∧
      addValues (limbs 0 2 0 0) valueOne = .ok (limbs 0 3 0 0) ∧
      addValues valueOne (limbs 0 2 0 0) = .ok (limbs 0 3 0 0)) ∧
    (valueOne ≠ rsv ∧ subValues valueMax valueOne = .ok (limbs 0x7fffffff 0xfffffffe 0xffffffff
      0xffffffff)) := by decide +kernel

/-- EncEdges and DecEdges: a state for each clause, with the first, the third and the last field. -/
theorem witness_stream_edges :
    (atBusy ⟨0x0B, valueOne, 0, 0, 0⟩ Pins.quiet).call = .none ∧
    ({ atBusy ⟨0x0B, valueOne, 0, 0, 0⟩ Pins.quiet with call := .requested } : State).call =
      .requested ∧
    ((atAnswer ⟨0x0C, 0, 0, 0, 0⟩ 0 Pins.quiet).call = .awaiting ∧
      (atAnswer ⟨0x0C, 0, 0, 0, 0⟩ 0 Pins.quiet).pins.saValid = false) ∧
    ((atAnswer ⟨0x0C, 0, 0, 0, 0⟩ 0 failPins).pins.saValid = true ∧
      (atAnswer ⟨0x0C, 0, 0, 0, 0⟩ 0 failPins).pins.saOk = false) ∧
    ((atAnswer ⟨0x0C, 0, 0, 0, 0⟩ 2 (okPins 9)).pins.saValid = true ∧
      (atAnswer ⟨0x0C, 0, 0, 0, 0⟩ 2 (okPins 9)).pins.saOk = true ∧
      (atAnswer ⟨0x0C, 0, 0, 0, 0⟩ 2 (okPins 9)).k < 3 ∧
      (atAnswer ⟨0x0C, 0, 0, 0, 0⟩ 3 (okPins 9)).k = 3) := by decide

/-- A started command with one edge of latency left and twelve edges of prompt answers. -/
def prompt (c : Command) : State :=
  { State.reset with
    phase := .busy, cmd := c, latency := 1
    inputs := List.replicate 1 Pins.quiet ++ callPins (some 1) ++ callPins (some 2) ++
      callPins (some 3) ++ callPins (some 4) ++ [] }

/-- EncWritesTheImage. -/
theorem witness_enc_writes :
    decode ⟨0x0B, rsv, 0, 0, 0⟩ = .ok (.enc rsv) ∧
    (prompt ⟨0x0B, rsv, 0, 0, 0⟩).Started ⟨0x0B, rsv, 0, 0, 0⟩ ∧
    (prompt ⟨0x0B, rsv, 0, 0, 0⟩).held = none ∧
    (prompt ⟨0x0B, rsv, 0, 0, 0⟩).inputs =
      List.replicate (prompt ⟨0x0B, rsv, 0, 0, 0⟩).latency Pins.quiet ++ callPins (some 1) ++
        callPins (some 2) ++ callPins (some 3) ++ callPins (some 4) ++ [] :=
  ⟨by simp [decode], ⟨rfl, rfl, rfl, rfl⟩, rfl, rfl⟩

/-- DecReadsTheFields. -/
theorem witness_dec_reads :
    decode ⟨0x0C, 5, 0, 0, 0⟩ = .ok .dec ∧
    (prompt ⟨0x0C, 5, 0, 0, 0⟩).Started ⟨0x0C, 5, 0, 0, 0⟩ ∧
    (prompt ⟨0x0C, 5, 0, 0, 0⟩).held = none ∧
    (prompt ⟨0x0C, 5, 0, 0, 0⟩).inputs =
      List.replicate (prompt ⟨0x0C, 5, 0, 0, 0⟩).latency Pins.quiet ++ callPins (some 1) ++
        callPins (some 2) ++ callPins (some 3) ++ callPins (some 4) ++ [] :=
  ⟨by simp [decode], ⟨rfl, rfl, rfl, rfl⟩, rfl, rfl⟩

/-- DecodeAfterEncode, with RSV. -/
theorem witness_round_trip :
    decode ⟨0x0B, rsv, 0, 0, 0⟩ = .ok (.enc rsv) ∧ decode ⟨0x0C, 0, 0, 0, 0⟩ = .ok .dec ∧
    transaction ⟨0x0B, rsv, 0, 0, 0⟩ [some 0, some 0, some 0, some 0] =
      some (.okNothing, [.write 0x80000000 true, .write 0 true, .write 0 true, .write 0 true]) ∧
    Response.okNothing.st = 0b00 := by
  refine ⟨by simp [decode], by simp [decode], by decide, rfl⟩

/-- The reset state satisfies the invariant in the simplest way: it is IDLE and zero. So does an IDLE
state that an earlier command has left other data in. -/
theorem witness_idle_inv (c : Command) (b : ReadBuf) (n : Nat) (p : List Pins) :
    ({ State.reset with cmd := c, k := 4, buf := b, latency := n, inputs := p } : State).Inv :=
  ⟨Response.wellFormed_none, by simp [State.reset], by simp [State.reset],
    Nat.le_refl 4, by simp [State.reset], by simp [State.reset], by simp [State.reset],
    by simp [State.reset], by simp [State.reset]⟩

/-- A DEC of RSV at its last answer, its first three fields read. -/
def lastRead : State :=
  { atAnswer ⟨0x0C, 0, 0, 0, 0⟩ 3 (okPins 0) with
    buf := ⟨0x80000000, 0, 0, 7⟩
    transfers := [.read (some 0x80000000), .read (some 0), .read (some 0)] }

/-- An ENC of RSV at its last answer, its first three fields written. -/
def lastWrite : State :=
  { atAnswer ⟨0x0B, rsv, 0, 0, 0⟩ 3 (okPins 0) with
    transfers := [.write 0x80000000 true, .write 0 true, .write 0 true] }

/-- StreamResponsesMatchTransfers, StepKeepsInvariant and PresentedResponsesAreWellFormed: a DEC of the
invariant whose step presents an OK response. -/
theorem witness_last_read :
    lastRead.Inv ∧ lastRead.phase = .busy ∧ decode lastRead.cmd = .ok .dec ∧
    (nextOf (step lastRead)).map (fun t => (t.phase, t.rsp)) =
      some (.resp, ⟨0b00, 0, rsv, 0, 0⟩) :=
  have hd : decode lastRead.cmd = .ok .dec := by simp [lastRead, atAnswer, atBusy, decode]
  ⟨⟨⟨rfl, by decide, by decide⟩, by simp [lastRead, atAnswer, atBusy, State.reset], by decide,
    by decide, by decide, by decide, by decide, by decide,
    fun _ => ⟨[], by simp only [State.callsDone, hd, callsOf]; decide⟩⟩, rfl, hd, by decide⟩

/-- StreamResponsesMatchTransfers: an ENC of the invariant whose step presents an OK response. -/
theorem witness_last_write :
    lastWrite.Inv ∧ lastWrite.phase = .busy ∧ decode lastWrite.cmd = .ok (.enc rsv) ∧
    (nextOf (step lastWrite)).map (fun t => (t.phase, t.rsp)) =
      some (.resp, ⟨0b00, 0, 0, 0, 0⟩) :=
  have hd : decode lastWrite.cmd = .ok (.enc rsv) := by
    simp [lastWrite, atAnswer, atBusy, decode]
  ⟨⟨⟨rfl, by decide, by decide⟩, by simp [lastWrite, atAnswer, atBusy, State.reset], by decide,
    by decide, by decide, by decide, by decide, by decide,
    fun _ => ⟨[], by simp only [State.callsDone, hd, callsOf]; decide⟩⟩, rfl, hd, by decide⟩

/-- ExecFrame: a command that presents, an ENC that does not use the buffer, and one that stays BUSY. -/
theorem witness_exec_frame :
    (∃ t, exec (.neg 0) State.reset = .next t) ∧ (Instr.neg 0).usesStream = false ∧
    Instr.enc 0 ≠ .dec ∧
    (nextOf (exec .dec (atAnswer ⟨0x0C, 0, 0, 0, 0⟩ 1 (okPins 3)))).map State.phase =
      some .busy := by
  refine ⟨exec_next _ _, rfl, by simp, by decide⟩

/-- RunResultGrowsByHandshakes: a step that adds a transfer, and one that adds a response. -/
theorem witness_run_grows :
    (nextOf (step lastRead)).map (fun t => t.transfers.length) = some 4 ∧
    (nextOf (step { State.reset with
      phase := .resp, rsp := .error .illOp, inputs := [takePins] })).map State.responses =
      some [.error .illOp] := by decide

/-- StepRunsTheLatchedCommand, IllegalCommandResponse (both clauses), UnreadFieldsChangeNothing,
PresentedResponsesAreWellFormed and CommandsReportOnlyTheirCauses. -/
theorem witness_busy_step :
    let s := atBusy ⟨0x09, 1, 2, 3, 4⟩ Pins.quiet
    let ill := atBusy ⟨0xFD, 1, 2, 3, 4⟩ Pins.quiet
    let res := atBusy ⟨0x0D, 1, 2, 3, 4⟩ Pins.quiet
    (s.phase = .busy ∧ s.latency = 0 ∧ s.pins.rst = false ∧ s.holdBroken = false ∧
      decode s.cmd = .ok (.add 1 2) ∧ decode ⟨0x09, 1, 2, 7, 8⟩ = .ok (.add 1 2)) ∧
    (ill.phase = .busy ∧ ill.holdBroken = false ∧ ill.cmd.word.extractLsb' 4 4 ≠ 0) ∧
    (res.phase = .busy ∧ res.holdBroken = false ∧ res.cmd.word = 0x0D) ∧
    (nextOf (step s)).map State.phase = some .resp ∧
    (nextOf (exec (.add 1 2) s)).map State.phase = some .resp := by
  refine ⟨⟨rfl, rfl, rfl, rfl, by simp [atBusy, decode], by simp [decode]⟩, by decide, by decide,
    by decide, by decide⟩

/-- ResetHasPriority: at an edge with a stream answer, in BUSY. -/
theorem witness_reset_edge :
    let s := atAnswer ⟨0x0C, 0, 0, 0, 0⟩ 2 { okPins 1 with rst := true }
    s.pins.rst = true ∧ s.holdBroken = false ∧ s.pins.saValid = true := by decide

/-- CommandAcceptance: with and without a command presented. -/
theorem witness_acceptance :
    let s : State := { State.reset with inputs := [presentPins ⟨0x09, 1, 2, 3, 4⟩] }
    (s.cmdReady = true ∧ s.holdBroken = false ∧ s.pins.cmdValid = true) ∧
    (State.reset.cmdReady = true ∧ State.reset.holdBroken = false ∧
      State.reset.pins.cmdValid = false) := by decide

/-- ResponseHandshake: taken, and not taken. -/
theorem witness_response :
    let s : State := { State.reset with phase := .resp, inputs := [takePins] }
    let w : State := { State.reset with phase := .resp, inputs := [Pins.quiet] }
    (s.phase = .resp ∧ s.pins.rst = false ∧ s.holdBroken = false ∧ s.pins.rspReady = true) ∧
    (w.phase = .resp ∧ w.pins.rst = false ∧ w.holdBroken = false ∧ w.pins.rspReady = false) := by
  decide

/-- StreamRequestChannel: a write request and a read request, held over an edge without `sq_ready`. -/
theorem witness_requests :
    let w : State := { atBusy ⟨0x0B, valueMin, 0, 0, 0⟩ Pins.quiet with call := .requested, k := 3 }
    let r : State := { atBusy ⟨0x0C, 0, 0, 0, 0⟩ Pins.quiet with call := .requested }
    decode w.cmd = .ok (.enc valueMin) ∧ decode r.cmd = .ok .dec ∧
    (w.outputs.sqValid = true ∧ w.outputs.sqWrite = some true ∧ w.outputs.sqWdata = some 1) ∧
    (r.outputs.sqValid = true ∧ r.outputs.sqWrite = some false ∧ r.outputs.sqWdata = none) ∧
    (State.reset.outputs.sqValid = false ∧ State.reset.outputs.sqWidth = 0b100000) ∧
    (w.pins.sqReady = false ∧ w.pins.rst = false) ∧
    (nextOf (step w)).map (fun t => t.outputs.sqWdata) = some (some 1) := by
  refine ⟨by simp [atBusy, decode], by simp [atBusy, decode], by decide, by decide, by decide,
    by decide, by decide⟩

/-- UnexpectedAnswerIsIgnored: an answer while the request is still pending. -/
theorem witness_unexpected_answer :
    ({ atBusy ⟨0x0C, 0, 0, 0, 0⟩ (okPins 1) with call := .requested } : State).call ≠ .awaiting := by
  decide

/-- WaitsForTheCollaborator: both waits. -/
theorem witness_waits :
    let a := atAnswer ⟨0x0C, 0, 0, 0, 0⟩ 0 Pins.quiet
    let r : State := { atBusy ⟨0x0C, 0, 0, 0, 0⟩ Pins.quiet with call := .requested }
    (a.phase = .busy ∧ a.latency = 0 ∧ a.latchedUsesStream = true ∧ a.pins.rst = false ∧
      a.holdBroken = false ∧ a.call = .awaiting ∧ a.pins.saValid = false) ∧
    (r.phase = .busy ∧ r.latency = 0 ∧ r.latchedUsesStream = true ∧ r.pins.rst = false ∧
      r.holdBroken = false ∧ r.call = .requested ∧ r.pins.sqReady = false) := by decide

/-- StepRefusesOnlyAnUnheldCommand: a command presented in RESP must be held, one accepted in IDLE need
not be, and a held command that is changed at its edge. -/
theorem witness_held :
    let c : Command := ⟨0x09, 1, 2, 3, 4⟩
    let s : State := { State.reset with held := some c, inputs := [presentPins ⟨0x0A, 1, 2, 3, 4⟩] }
    (nextOf (step { State.reset with phase := .resp, inputs := [presentPins c] })).map State.held =
      some (some c) ∧
    (nextOf (step { State.reset with inputs := [presentPins c] })).map State.held = some none ∧
    (s.held = some c ∧ ¬(s.pins.cmdValid = true ∧ s.pins.cmd = c)) := by decide

/-- CommandRunCompletes: an illegal command, whose transaction needs no answer either. -/
theorem witness_illegal_run :
    transaction ⟨0xF9, 1, 2, 3, 4⟩ [] = some (⟨0b11, 0xF, 0, 0, 0⟩, []) ∧
    transaction ⟨0x00, 0, 0, 0, 0⟩ [] = some (⟨0b11, 0xE, 0, 0, 0⟩, []) := by decide

/-- CommandRunCompletes. -/
theorem witness_command_run :
    let c : Command := ⟨0x09, 1, 2, 3, 4⟩
    let s : State := { State.reset with
      inputs := presentPins c :: List.replicate (Config.waitEdges c + 1) Pins.quiet ++
        takePins :: [] }
    transaction c [] = some (.okR 3, []) ∧ s.phase = .idle ∧ s.held = none ∧
    s.inputs = presentPins c :: List.replicate (Config.waitEdges c + 1) Pins.quiet ++
      takePins :: [] :=
  ⟨by decide, rfl, rfl, rfl⟩

/-- A NEG just accepted, with quiet pins until its response. -/
def justAccepted : State :=
  let c : Command := ⟨0x01, 1, 0, 0, 0⟩
  { State.reset with
    phase := .busy, cmd := c, latency := Config.waitEdges c
    inputs := List.replicate (Config.waitEdges c) Pins.quiet ++ [Pins.quiet] }

/-- ResponseNotBeforeLat and ControllerRefinesTransaction: the run to its response. -/
theorem witness_run_to_response :
    justAccepted.phase = .busy ∧ justAccepted.latchedUsesStream = false ∧
    justAccepted.latency = Config.waitEdges justAccepted.cmd ∧ justAccepted.NoReset ∧
    justAccepted.Started ⟨0x01, 1, 0, 0, 0⟩ ∧
    ∃ t, run (Config.waitEdges justAccepted.cmd + 1) justAccepted = .next t ∧ t.phase = .resp ∧
      t.responses = justAccepted.responses := by
  refine ⟨rfl, by decide, rfl, ?_, ⟨rfl, rfl, rfl, rfl⟩, ?_⟩
  · intro p hp
    simp only [justAccepted, List.mem_append, List.mem_replicate, List.mem_singleton] at hp
    rcases hp with ⟨_, rfl⟩ | rfl <;> rfl
  · have hw := run_wait (n := Config.waitEdges justAccepted.cmd) (s := justAccepted)
      (rest := [Pins.quiet]) rfl rfl rfl rfl
    rw [run_add hw, run_succ_of_step (t := _) (step_of_edge rfl rfl)]
    exact ⟨_, rfl, rfl, rfl⟩

/-- A DEC started with its latency passed, whose first read is answered `fail`. -/
def failingRead : State :=
  { State.reset with phase := .busy, cmd := ⟨0x0C, 1, 2, 3, 4⟩, inputs := callPins none }

/-- ControllerRefinesTransaction: the three edges of a failing DEC to its response. -/
theorem witness_dec_to_response :
    failingRead.Started ⟨0x0C, 1, 2, 3, 4⟩ ∧ failingRead.NoReset ∧
    (nextOf (run 3 failingRead)).map (fun t => (t.phase, t.responses, t.rsp, t.transfers)) =
      some (.resp, failingRead.responses, .error .ioRd, [.read none]) := by
  refine ⟨⟨rfl, rfl, rfl, rfl⟩, ?_, by decide⟩
  unfold State.NoReset
  decide

/-- UnreadFieldsChangeNothing: two commands that differ in unread fields, in a BUSY state that still
waits. -/
theorem witness_unread_fields :
    let s : State := { atBusy ⟨0x07, 1, 2, 3, 4⟩ Pins.quiet with latency := 1 }
    s.phase = .busy ∧ s.latency ≠ 0 ∧ decode s.cmd = .ok (.ceil 1) ∧
    decode ⟨0x07, 1, 5, 6, 7⟩ = .ok (.ceil 1) :=
  ⟨rfl, by decide, by simp [atBusy, decode], by simp [decode]⟩

/-- NothingIsRetained: two IDLE states that differ in what an earlier command left. -/
theorem witness_retained :
    let s : State := { State.reset with
      cmd := ⟨0x0C, 1, 2, 3, 4⟩, k := 4, buf := ⟨1, 2, 3, 4⟩, latency := 7, inputs := [] }
    let s' : State := { State.reset with
      cmd := ⟨0, 0, 0, 0, 0⟩, k := 4, buf := ⟨0, 0, 0, 0⟩, latency := 0, inputs := [] }
    s ≠ s' ∧ s.Inv ∧ s'.Inv ∧ s.phase = .idle ∧ s'.phase = .idle ∧ s.responses = s'.responses ∧
    s.transfers = s'.transfers ∧ s.inputs = s'.inputs ∧ s.held = s'.held :=
  ⟨by decide, witness_idle_inv _ _ _ _, witness_idle_inv _ _ _ _, rfl, rfl, rfl, rfl, rfl, rfl⟩

end Sys2Proof.Tests
end

section
/-! PROOFS. `RNE64` rounds to the nearest number of 53 bits, ties to even (R10). The result is one of
the two ends of the gap between consecutive multiples of `2^sh` that holds `n`; no number of 53
bits lies strictly inside that gap, so only its ends have to be compared. -/

namespace Sys2Proof.Machine

/-- A number of at most 53 significant bits. -/
def FitsSig53 (x : Nat) : Prop := ∃ sig sh, sig < 2 ^ 53 ∧ x = sig * 2 ^ sh

/-- A number whose 53-bit significand is even: the winner of a tie (R10). -/
def HasEvenSig53 (x : Nat) : Prop :=
  ∃ sig sh, sig < 2 ^ 53 ∧ 2 ^ 52 ≤ sig ∧ sig % 2 = 0 ∧ x = sig * 2 ^ sh

/-! ## Numbers of 53 bits -/

/-- A carry out of the significand moves to the exponent. -/
theorem fitsSig53_mul_two_pow {sig : Nat} (h : sig ≤ 2 ^ 53) (sh : Nat) :
    FitsSig53 (sig * 2 ^ sh) := by
  obtain hlt | rfl := Nat.lt_or_eq_of_le h
  · exact ⟨sig, sh, hlt, rfl⟩
  · exact ⟨2 ^ 52, sh + 1, by decide, by omega⟩

/-- The same carry, to a power of two, keeps an even significand even. -/
theorem hasEvenSig53_mul_two_pow {sig : Nat} (hlo : 2 ^ 52 ≤ sig) (hhi : sig ≤ 2 ^ 53)
    (heven : sig % 2 = 0) (sh : Nat) : HasEvenSig53 (sig * 2 ^ sh) := by
  obtain hlt | rfl := Nat.lt_or_eq_of_le hhi
  · exact ⟨sig, sh, hlt, hlo, heven, rfl⟩
  · exact ⟨2 ^ 52, sh + 1, by decide, le_rfl, by decide, by omega⟩

/-- From `2^52 * 2^sh` on, numbers of 53 bits are multiples of `2^sh`: none lies strictly between two
consecutive ones. -/
theorem FitsSig53.outside_gap {x sig : Nat} (hx : FitsSig53 x) (hsig : 2 ^ 52 ≤ sig) (sh : Nat) :
    x ≤ sig * 2 ^ sh ∨ (sig + 1) * 2 ^ sh ≤ x := by
  obtain ⟨a, t, ha, rfl⟩ := hx
  obtain hlt | hge := Nat.lt_or_ge t sh
  · left
    obtain ⟨d, rfl⟩ := Nat.exists_eq_add_of_lt hlt
    calc a * 2 ^ t ≤ 2 ^ 53 * 2 ^ (t + d) :=
          Nat.mul_le_mul ha.le (Nat.pow_le_pow_right two_pos (Nat.le_add_right t d))
      _ = 2 ^ 52 * 2 ^ (t + d + 1) := by omega
      _ ≤ sig * 2 ^ (t + d + 1) := Nat.mul_le_mul_right _ hsig
  · obtain ⟨d, rfl⟩ := Nat.exists_eq_add_of_le hge
    rw [Nat.pow_add, Nat.mul_left_comm, Nat.mul_comm (2 ^ sh)]
    obtain hgt | hle := Nat.lt_or_ge sig (a * 2 ^ d)
    · exact .inr (Nat.mul_le_mul_right _ hgt)
    · exact .inl (Nat.mul_le_mul_right _ hle)

/-! ## What `rne64` returns -/

theorem rne64_of_lt {n : Nat} (h : n < 2 ^ 53) : rne64 n = n := if_pos h

/-- The rounding of a number of `j + 54` bits, which loses the last `j + 1` of them. -/
theorem rne64_of_log2 {n j : Nat} (hj : n.log2 = j + 53) :
    rne64 n =
      if 2 ^ j < n % 2 ^ (j + 1) ∨ n % 2 ^ (j + 1) = 2 ^ j ∧ n / 2 ^ (j + 1) % 2 = 1
      then (n / 2 ^ (j + 1) + 1) * 2 ^ (j + 1) else n / 2 ^ (j + 1) * 2 ^ (j + 1) := by
  have hn : n ≠ 0 := by rintro rfl; simp at hj
  have hge : ¬ n < 2 ^ 53 := Nat.not_lt.2 ((Nat.le_log2 hn).1 (by omega))
  have hsh : n.log2 - 52 = j + 1 := by omega
  simp only [rne64, if_neg hge, hsh, Nat.add_sub_cancel]

/-- `n` cut at its 53 leading bits: `half` is half a unit in the last place, and the rest decides
between the two ends of the gap, a tie going to the even significand. -/
theorem rne64_cases {n : Nat} (h : 2 ^ 53 ≤ n) :
    ∃ sig sh rest half, 2 ^ 52 ≤ sig ∧ sig < 2 ^ 53 ∧ 2 ^ sh = 2 * half ∧
      n = sig * 2 ^ sh + rest ∧ rest < 2 ^ sh ∧
      ((rne64 n = sig * 2 ^ sh ∧ (rest < half ∨ rest = half ∧ sig % 2 = 0)) ∨
       (rne64 n = (sig + 1) * 2 ^ sh ∧ (half < rest ∨ rest = half ∧ (sig + 1) % 2 = 0))) := by
  have hn : n ≠ 0 := by omega
  obtain ⟨j, hj⟩ := Nat.exists_eq_add_of_le' ((Nat.le_log2 hn).2 h)
  have hlo : 2 ^ 52 * 2 ^ (j + 1) ≤ n := by
    rw [← Nat.pow_add, show 52 + (j + 1) = n.log2 by omega]
    exact Nat.log2_self_le hn
  have hhi : n < 2 ^ (j + 1) * 2 ^ 53 := by
    rw [← Nat.pow_add, show j + 1 + 53 = n.log2 + 1 by omega]
    exact Nat.lt_log2_self
  have hpos : 0 < 2 ^ (j + 1) := Nat.two_pow_pos _
  refine ⟨n / 2 ^ (j + 1), j + 1, n % 2 ^ (j + 1), 2 ^ j, (Nat.le_div_iff_mul_le hpos).2 hlo,
    Nat.div_lt_of_lt_mul hhi, Nat.pow_succ', (Nat.div_add_mod' n _).symm, Nat.mod_lt _ hpos, ?_⟩
  have hround := rne64_of_log2 hj
  split at hround
  case isTrue hup => exact .inr ⟨hround, by omega⟩
  case isFalse hdown => exact .inl ⟨hround, by omega⟩

theorem fitsSig53_rne64 (n : Nat) : FitsSig53 (rne64 n) := by
  obtain hlt | hge := Nat.lt_or_ge n (2 ^ 53)
  · exact ⟨n, 0, hlt, by simp [rne64_of_lt hlt]⟩
  · obtain ⟨sig, sh, rest, half, -, hsig, -, -, -, ⟨h, -⟩ | ⟨h, -⟩⟩ := rne64_cases hge
    · exact h ▸ fitsSig53_mul_two_pow hsig.le sh
    · exact h ▸ fitsSig53_mul_two_pow hsig sh

/-- No number of 53 bits is nearer to `n`, and one as near leaves an even result (R10). -/
theorem rne64_nearest (n : Nat) {x : Nat} (hx : FitsSig53 x) :
    |(rne64 n : ℤ) - n| ≤ |(x : ℤ) - n| ∧
    (|(rne64 n : ℤ) - n| = |(x : ℤ) - n| → rne64 n ≠ x → HasEvenSig53 (rne64 n)) := by
  simp only [Int.abs_eq_natAbs]
  obtain hlt | hge := Nat.lt_or_ge n (2 ^ 53)
  · rw [rne64_of_lt hlt]
    omega
  obtain ⟨sig, sh, rest, half, hlo, hhi, hhalf, hn, hrest, hround⟩ := rne64_cases hge
  have hgap := hx.outside_gap hlo sh
  rw [Nat.succ_mul] at hgap hround
  obtain ⟨h, hnear⟩ | ⟨h, hnear⟩ := hround
  · rw [h]
    exact ⟨by omega, fun htie hne => hasEvenSig53_mul_two_pow hlo hhi.le (by omega) sh⟩
  · rw [h]
    refine ⟨by omega, fun htie hne => ?_⟩
    rw [← Nat.succ_mul]
    exact hasEvenSig53_mul_two_pow (by omega) hhi (by omega) sh

/-- Settles O9: below `2^53` the result is exact; from there on it is the nearer end of the gap that
holds `n`, and every other number of 53 bits lies outside that gap. -/
theorem roundingIsNearestEven : Obligations.RoundingIsNearestEven := fun n =>
  ⟨fitsSig53_rne64 n, fun sig sh hsig => rne64_nearest n ⟨sig, sh, hsig, rfl⟩⟩

end Sys2Proof.Machine
end

section
/-! PROOFS. Facts that several statements about the controller use: the latched command and its calls,
each case of an edge and of a stream command as an equation, and what an edge does to the responses
taken (spec/70_reset_and_hazards.md R119 to R124, R127). -/

namespace Sys2Proof.Machine

/-! ## The latched command and its calls -/

/-- A command that has moved no field has made no call. -/
theorem callsOf_zero (i : Instr) (b : ReadBuf) : callsOf i 0 b = [] := by
  cases i <;> rfl

theorem State.callsDone_of_ok {s : State} {i : Instr} (hd : decode s.cmd = .ok i) :
    s.callsDone = callsOf i s.k s.buf := by
  simp [callsDone, hd]

theorem State.callsDone_of_k_zero {s : State} (hk : s.k = 0) : s.callsDone = [] := by
  unfold callsDone
  split
  · rw [hk, callsOf_zero]
  · rfl

theorem State.latchedUsesStream_of_ok {s : State} {i : Instr} (hd : decode s.cmd = .ok i) :
    s.latchedUsesStream = i.usesStream := by
  simp [latchedUsesStream, hd]

theorem State.latchedUsesStream_of_error {s : State} {e : Reject}
    (hd : decode s.cmd = .error e) : s.latchedUsesStream = false := by
  simp [latchedUsesStream, hd]

theorem State.callsDone_of_not_stream {s : State} (hs : s.latchedUsesStream = false) :
    s.callsDone = [] := by
  unfold latchedUsesStream at hs
  unfold callsDone
  split at hs
  next i hd =>
    cases i
    case enc | dec => cases hs
    all_goals rfl
  next => rfl

/-! ## The transaction of a command (R33) -/

theorem transaction_of_ok {c : Command} {i : Instr} (hd : decode c = .ok i)
    (answers : List (Option Limb)) :
    transaction c answers = transactionOf i answers := by
  simp [transaction, hd]

theorem transaction_of_error {c : Command} {e : Reject} (hd : decode c = .error e)
    (answers : List (Option Limb)) :
    transaction c answers = some (.error (rejectCause e), []) := by
  simp [transaction, hd]

theorem transactionOf_of_computed {i : Instr} {r : Response} (h : computed i = some r)
    (answers : List (Option Limb)) : transactionOf i answers = some (r, []) := by
  cases i <;> simp_all [transactionOf, computed]

/-! ## One edge in each phase -/

theorem edge_of_rst {s : State} (hr : s.pins.rst = true) : edge s = .next s.resetEdge := by
  simp [edge, hr]

theorem edge_of_idle {s : State} (hr : s.pins.rst = false) (hp : s.phase = .idle) :
    edge s = .next (if s.pins.cmdValid then s.accept s.pins.cmd else s) := by
  simp [edge, hr, hp]

theorem edge_of_busy {s : State} (hr : s.pins.rst = false) (hp : s.phase = .busy) :
    edge s = busyEdge s := by
  simp [edge, hr, hp]

theorem edge_of_resp {s : State} (hr : s.pins.rst = false) (hp : s.phase = .resp) :
    edge s = .next (if s.pins.rspReady then s.take else s) := by
  simp [edge, hr, hp]

theorem busyEdge_of_wait {s : State} {left : Nat} (hl : s.latency = left + 1) :
    busyEdge s = .next (s.waitEdge left) := by
  simp [busyEdge, hl]

theorem busyEdge_of_ok {s : State} {i : Instr} (hl : s.latency = 0) (hd : decode s.cmd = .ok i) :
    busyEdge s = exec i s := by
  simp [busyEdge, hl, hd]

theorem busyEdge_of_error {s : State} {e : Reject} (hl : s.latency = 0)
    (hd : decode s.cmd = .error e) : busyEdge s = .next (s.present (.error (rejectCause e))) := by
  simp [busyEdge, hl, hd]

theorem step_of_holdBroken {s : State} (hb : s.holdBroken = true) :
    step s = .refused .commandNotHeld := by
  simp [step, hb]

/-! ## One edge of a stream command, in each case -/

section
variable {s : State} {v : Limb}

theorem streamCall_of_answered (ha : s.answeredNow) (p : Primitive) :
    streamCall p s = .answered s.pins.answer (s.endCall p) :=
  (streamCall_cases p s).elim And.right fun h => absurd ha h.1

theorem streamCall_of_pending (ha : ¬s.answeredNow) (p : Primitive) :
    streamCall p s = .pending { s with call := s.nextCall } :=
  (streamCall_cases p s).elim (fun h => absurd h.1 ha) And.right

theorem execEnc_of_pending (ha : ¬s.answeredNow) (a : Value) :
    execEnc a s = .next { s with call := s.nextCall } := by
  simp [execEnc, streamCall_of_pending ha]

theorem execEnc_of_fail (ha : s.answeredNow) (hv : s.pins.answer = none) (a : Value) :
    execEnc a s = .next ((s.endCall (.write (fieldOf a s.k))).present (.error .ioWr)) := by
  simp [execEnc, streamCall_of_answered ha, hv]

theorem execEnc_of_ok (ha : s.answeredNow) (hv : s.pins.answer = some v) (hk : s.k < 3)
    (a : Value) : execEnc a s = .next (s.endCall (.write (fieldOf a s.k))).countField := by
  have hmore : s.k + 1 < 4 := by omega
  simp [execEnc, streamCall_of_answered ha, hv, Config.nFields, hmore]

theorem execEnc_of_last (ha : s.answeredNow) (hv : s.pins.answer = some v) (hk : 3 ≤ s.k)
    (a : Value) : execEnc a s =
      .next ((s.endCall (.write (fieldOf a s.k))).countField.present .okNothing) := by
  have hlast : ¬s.k + 1 < 4 := by omega
  simp [execEnc, streamCall_of_answered ha, hv, Config.nFields, hlast]

theorem execDec_of_pending (ha : ¬s.answeredNow) :
    execDec s = .next { s with call := s.nextCall } := by
  simp [execDec, streamCall_of_pending ha]

theorem execDec_of_fail (ha : s.answeredNow) (hv : s.pins.answer = none) :
    execDec s = .next ((s.endCall .read).present (.error .ioRd)) := by
  simp [execDec, streamCall_of_answered ha, hv]

theorem execDec_of_ok (ha : s.answeredNow) (hv : s.pins.answer = some v) (hk : s.k < 3) :
    execDec s = .next ((s.endCall .read).gatherField v) := by
  have hmore : s.k + 1 < 4 := by omega
  simp [execDec, streamCall_of_answered ha, hv, Config.nFields, hmore]

theorem execDec_of_last (ha : s.answeredNow) (hv : s.pins.answer = some v) (hk : 3 ≤ s.k) :
    execDec s = .next (((s.endCall .read).gatherField v).present
      (.okR (s.buf.put s.k v).value)) := by
  have hlast : ¬s.k + 1 < 4 := by omega
  simp [execDec, streamCall_of_answered ha, hv, Config.nFields, hlast]

end

/-! ## The responses taken -/

/-- No instruction takes a response. -/
theorem exec_responses {i : Instr} {s t : State} (h : exec i s = .next t) :
    t.responses = s.responses := by
  cases hi : i.usesStream
  case false =>
    obtain ⟨r, hr⟩ := computed_of_not_stream hi
    cases h.symm.trans (exec_of_computed hr s)
    rfl
  case true =>
    cases i with
    | enc a =>
      obtain ⟨-, he⟩ | ⟨-, -, he⟩ | ⟨-, -, -, he⟩ | ⟨-, -, -, he⟩ := execEnc_cases a s <;>
        cases h.symm.trans he <;> rfl
    | dec =>
      obtain ⟨-, he⟩ | ⟨-, -, he⟩ | ⟨_, -, -, -, he⟩ | ⟨_, -, -, -, he⟩ := execDec_cases s <;>
        cases h.symm.trans he <;> rfl
    | _ => cases hi

theorem busyEdge_responses {s t : State} (h : busyEdge s = .next t) :
    t.responses = s.responses := by
  obtain ⟨left, -, he⟩ | ⟨-, i, -, he⟩ | ⟨-, e, -, he⟩ := busyEdge_cases s
  · cases h.symm.trans he; rfl
  · exact exec_responses (he.symm.trans h)
  · cases h.symm.trans he; rfl

/-- A response taken stays taken. -/
theorem edge_responses_length_le {s t : State} (h : edge s = .next t) :
    s.responses.length ≤ t.responses.length := by
  obtain ⟨-, he⟩ | ⟨-, -, -, he⟩ | ⟨-, -, -, he⟩ | ⟨-, -, he⟩ | ⟨-, -, -, he⟩ | ⟨-, -, -, he⟩ :=
    edge_cases s <;> rw [he] at h
  case inr.inr.inr.inl => exact (congrArg List.length (busyEdge_responses h)).ge
  all_goals cases h; simp

/-! ## Runs without reset -/

theorem State.NoReset.pins_rst {s : State} (h : s.NoReset) : s.pins.rst = false := by
  cases hi : s.inputs with
  | nil => rw [s.pins_nil hi]; rfl
  | cons p rest => rw [s.pins_cons p rest hi]; exact h p (by simp [hi])

theorem State.NoReset.step {s t : State} (h : s.NoReset) (ht : step s = .next t) : t.NoReset := by
  obtain ⟨-, u, -, rfl⟩ := (step_next_iff s t).mp ht
  exact fun p hp => h p (List.mem_of_mem_tail hp)

end Sys2Proof.Machine
end

section
/-! PROOFS. The controller's invariant (spec/10_state.md R32 to R34): it holds after reset, and each
operation of an edge keeps it. Outside BUSY only the response, `k` and the call matter; in BUSY a
stream command keeps it field by field. -/

namespace Sys2Proof.Machine

/-! ## Outside BUSY -/

/-- Outside BUSY the clauses about the command in progress say nothing. -/
theorem State.inv_of_not_busy {s : State} (hp : s.phase ≠ .busy) (hrsp : s.rsp.WellFormed)
    (hresponses : ∀ r ∈ s.responses, r.WellFormed)
    (hzero : s.phase ≠ .resp → s.rsp = Response.none) (hk : s.k ≤ 4) (hcall : s.call = .none) :
    s.Inv where
  rspWellFormed := hrsp
  responsesWellFormed := hresponses
  rspZero := hzero
  kBound := hk
  kBusy hb := absurd hb hp
  callBusy hc := absurd hcall hc
  waiting hb := absurd hb hp
  kStream hb := absurd hb hp
  progress hb := absurd hb hp

/-- Settles O52: the block after reset is IDLE with nothing pending. -/
theorem resetMeetsInvariant : Obligations.ResetMeetsInvariant :=
  State.inv_of_not_busy (by decide) Response.wellFormed_none (by simp [State.reset])
    (fun _ => rfl) (Nat.zero_le 4) rfl

theorem State.Inv.call_eq_none {s : State} (h : s.Inv) (hp : s.phase ≠ .busy) :
    s.call = .none := by
  by_contra hc
  exact hp (h.callBusy hc).1

theorem State.Inv.resetEdge {s : State} (h : s.Inv) : s.resetEdge.Inv :=
  inv_of_not_busy (by simp) Response.wellFormed_none h.responsesWellFormed (fun _ => rfl)
    (Nat.zero_le 4) rfl

theorem State.Inv.take {s : State} (h : s.Inv) (hp : s.phase = .resp) : s.take.Inv := by
  refine inv_of_not_busy (by simp) Response.wellFormed_none ?_ (fun _ => rfl) h.kBound
    (h.call_eq_none (by simp [hp]))
  intro r hr
  obtain hr | rfl : r ∈ s.responses ∨ r = s.rsp := by simpa using hr
  · exact h.responsesWellFormed r hr
  · exact h.rspWellFormed

/-- A presented response needs nothing but to be well formed and to leave no call behind. -/
theorem State.inv_present {s : State} {r : Response} (hr : r.WellFormed)
    (hresponses : ∀ r ∈ s.responses, r.WellFormed) (hk : s.k ≤ 4) (hcall : s.call = .none) :
    (s.present r).Inv :=
  inv_of_not_busy (by simp) hr hresponses (fun hp => absurd rfl hp) hk hcall

/-- The pins and the hold duty are no part of the invariant. -/
theorem State.Inv.endEdge {t : State} (h : t.Inv) (s : State) : (s.endEdge t).Inv where
  rspWellFormed := h.rspWellFormed
  responsesWellFormed := h.responsesWellFormed
  rspZero := h.rspZero
  kBound := h.kBound
  kBusy := h.kBusy
  callBusy := h.callBusy
  waiting := h.waiting
  kStream := h.kStream
  progress := h.progress

/-! ## The start of a command -/

theorem State.Inv.accept {s : State} (h : s.Inv) (hp : s.phase = .idle) (c : Command) :
    (s.accept c).Inv where
  rspWellFormed := h.rspWellFormed
  responsesWellFormed := h.responsesWellFormed
  rspZero _ := h.rspZero (by simp [hp])
  kBound := Nat.zero_le 4
  kBusy _ := Nat.zero_lt_succ 3
  callBusy hc := absurd rfl hc
  waiting _ _ := ⟨rfl, rfl⟩
  kStream _ _ := rfl
  progress _ := ⟨s.transfers, by rw [callsDone_of_k_zero rfl]; simp⟩

theorem State.Inv.waitEdge {s : State} (h : s.Inv) (hp : s.phase = .busy) (hl : s.latency ≠ 0)
    (left : Nat) : (s.waitEdge left).Inv where
  rspWellFormed := h.rspWellFormed
  responsesWellFormed := h.responsesWellFormed
  rspZero := h.rspZero
  kBound := h.kBound
  kBusy := h.kBusy
  callBusy := h.callBusy
  waiting _ _ := h.waiting hp hl
  kStream := h.kStream
  progress := h.progress

/-! ## A running command -/

/-- A command that does not use the stream has no call, so its response can be presented. -/
theorem State.Inv.present_of_not_stream {s : State} (h : s.Inv)
    (hs : s.latchedUsesStream = false) {r : Response} (hr : r.WellFormed) : (s.present r).Inv := by
  refine inv_present hr h.responsesWellFormed h.kBound ?_
  by_contra hc
  simpa [hs] using (h.callBusy hc).2

/-- A call of a running stream command may be in any state. -/
theorem State.Inv.setCall {s : State} (h : s.Inv) (hp : s.phase = .busy) (hl : s.latency = 0)
    (hs : s.latchedUsesStream = true) (c : StreamCall) : State.Inv { s with call := c } where
  rspWellFormed := h.rspWellFormed
  responsesWellFormed := h.responsesWellFormed
  rspZero := h.rspZero
  kBound := h.kBound
  kBusy := h.kBusy
  callBusy _ := ⟨hp, hs⟩
  waiting _ hl' := absurd hl hl'
  kStream := h.kStream
  progress := h.progress

/-- A running stream command with one more field moved: its call is over, `x` is the call's record and
`b` the buffer now. -/
def State.moveField (s : State) (b : ReadBuf) (x : Transfer) : State :=
  { s with call := .none, k := s.k + 1, buf := b, transfers := s.transfers ++ [x] }

theorem State.endCall_countField (s : State) (p : Primitive) :
    (s.endCall p).countField = s.moveField s.buf (p.transfer s.pins.answer) := rfl

theorem State.endCall_gatherField (s : State) (p : Primitive) (v : Limb) :
    (s.endCall p).gatherField v = s.moveField (s.buf.put s.k v) (p.transfer s.pins.answer) := rfl

/-- A stream command that stays BUSY after a call keeps the invariant when the call's record is that of
its next field. -/
theorem State.Inv.moveField {s : State} {i : Instr} (h : s.Inv) (hp : s.phase = .busy)
    (hl : s.latency = 0) (hd : decode s.cmd = .ok i) (hi : i.usesStream = true) (hk : s.k < 3)
    {b : ReadBuf} {x : Transfer} (hdone : callsOf i (s.k + 1) b = callsOf i s.k s.buf ++ [x]) :
    (s.moveField b x).Inv where
  rspWellFormed := h.rspWellFormed
  responsesWellFormed := h.responsesWellFormed
  rspZero := h.rspZero
  kBound := Nat.le_succ_of_le hk
  kBusy _ := Nat.succ_lt_succ hk
  callBusy hc := absurd rfl hc
  waiting _ hl' := absurd hl hl'
  kStream _ hs := by
    rw [latchedUsesStream_of_ok (s := s.moveField b x) hd, hi] at hs
    cases hs
  progress _ := by
    obtain ⟨earlier, he⟩ := h.progress hp
    refine ⟨earlier, ?_⟩
    calc s.transfers ++ [x] = earlier ++ (callsOf i s.k s.buf ++ [x]) := by
          rw [he, callsDone_of_ok hd, List.append_assoc]
      _ = earlier ++ (s.moveField b x).callsDone := by
          rw [← hdone, callsDone_of_ok (s := s.moveField b x) hd]
          rfl

theorem State.Inv.execEnc {s t : State} {a : Value} (h : s.Inv) (hp : s.phase = .busy)
    (hl : s.latency = 0) (hd : decode s.cmd = .ok (.enc a)) (ht : execEnc a s = .next t) :
    t.Inv := by
  have hs : s.latchedUsesStream = true := latchedUsesStream_of_ok hd
  have hk := h.kBusy hp
  obtain ⟨-, he⟩ | ⟨-, -, he⟩ | ⟨-, ⟨v, hv⟩, hlt, he⟩ | ⟨-, -, -, he⟩ := execEnc_cases a s <;>
    cases ht.symm.trans he
  case inl => exact h.setCall hp hl hs _
  case inr.inl =>
    exact inv_present (Response.wellFormed_error _) h.responsesWellFormed h.kBound rfl
  case inr.inr.inl =>
    rw [endCall_countField]
    refine h.moveField hp hl hd rfl hlt ?_
    simp [callsOf, okWrites_succ, Primitive.transfer, hv]
  case inr.inr.inr =>
    exact inv_present Response.wellFormed_okNothing h.responsesWellFormed hk rfl

theorem State.Inv.execDec {s t : State} (h : s.Inv) (hp : s.phase = .busy) (hl : s.latency = 0)
    (hd : decode s.cmd = .ok .dec) (ht : execDec s = .next t) : t.Inv := by
  have hs : s.latchedUsesStream = true := latchedUsesStream_of_ok hd
  have hk := h.kBusy hp
  obtain ⟨-, he⟩ | ⟨-, -, he⟩ | ⟨v, -, hv, hlt, he⟩ | ⟨v, -, -, -, he⟩ := execDec_cases s <;>
    cases ht.symm.trans he
  case inl => exact h.setCall hp hl hs _
  case inr.inl =>
    exact inv_present (Response.wellFormed_error _) h.responsesWellFormed h.kBound rfl
  case inr.inr.inl =>
    rw [endCall_gatherField]
    refine h.moveField hp hl hd rfl hlt ?_
    simp [callsOf, okReads_put s.buf v hk, Primitive.transfer, hv]
  case inr.inr.inr =>
    exact inv_present (Response.wellFormed_okR _) h.responsesWellFormed hk rfl

theorem Response.wellFormed_of_computed {i : Instr} {r : Response} (h : computed i = some r) :
    r.WellFormed := by
  cases i <;> simp only [computed, Option.some.injEq, reduceCtorEq] at h <;> subst h
  case cmp => exact wellFormed_okCr _
  case cvtvd | cvtvi => exact wellFormed_ofQ _
  all_goals exact wellFormed_ofR _

theorem State.Inv.exec {s t : State} {i : Instr} (h : s.Inv) (hp : s.phase = .busy)
    (hl : s.latency = 0) (hd : decode s.cmd = .ok i) (ht : exec i s = .next t) : t.Inv := by
  cases hi : i.usesStream
  case false =>
    obtain ⟨r, hr⟩ := computed_of_not_stream hi
    cases ht.symm.trans (exec_of_computed hr s)
    exact h.present_of_not_stream ((latchedUsesStream_of_ok hd).trans hi)
      (Response.wellFormed_of_computed hr)
  case true =>
    cases i with
    | enc a => exact h.execEnc hp hl hd ht
    | dec => exact h.execDec hp hl hd ht
    | _ => cases hi

/-! ## An edge and a step -/

theorem State.Inv.busyEdge {s t : State} (h : s.Inv) (hp : s.phase = .busy)
    (ht : busyEdge s = .next t) : t.Inv := by
  obtain ⟨left, hl, he⟩ | ⟨hl, i, hd, he⟩ | ⟨-, e, hd, he⟩ := busyEdge_cases s
  · cases ht.symm.trans he
    exact h.waitEdge hp (by simp [hl]) left
  · exact h.exec hp hl hd (he.symm.trans ht)
  · cases ht.symm.trans he
    exact h.present_of_not_stream (latchedUsesStream_of_error hd) (Response.wellFormed_error _)

theorem State.Inv.edge {s t : State} (h : s.Inv) (ht : edge s = .next t) : t.Inv := by
  obtain ⟨-, he⟩ | ⟨-, hp, -, he⟩ | ⟨-, -, -, he⟩ | ⟨-, hp, he⟩ | ⟨-, hp, -, he⟩ | ⟨-, -, -, he⟩ :=
    edge_cases s <;> rw [he] at ht
  case inr.inr.inr.inl => exact h.busyEdge hp ht
  all_goals cases ht
  · exact h.resetEdge
  · exact h.accept hp _
  · exact h
  · exact h.take hp
  · exact h

theorem State.Inv.step {s t : State} (h : s.Inv) (ht : step s = .next t) : t.Inv := by
  obtain ⟨-, u, hu, rfl⟩ := (step_next_iff s t).mp ht
  exact (h.edge hu).endEdge s

/-- Settles O53: a step is an edge, and each move of an edge keeps the invariant. -/
theorem stepKeepsInvariant : Obligations.StepKeepsInvariant := fun _ _ h ht => h.step ht

end Sys2Proof.Machine
end

section
/-! PROOFS. The value format (spec/10_state.md R21 to R25): a pattern's value by its limbs, the
constants, and which results are representable. -/

namespace Sys2Proof.Machine

/-! ## The value of a pattern -/

/-- Bit 127 is the top bit of the highest limb (R22). -/
theorem sign_eq_msb_ihi (p : Value) : sign p = (ihi p).msb := by
  rw [sign_eq_decide, BitVec.msb_eq_decide, toNat_ihi, decide_eq_decide]
  have := p.isLt
  omega

/-- The signed reading of a pattern is the weighted sum of its limbs, `ihi` read as signed (R21). -/
theorem toInt_eq_limbs (p : Value) :
    p.toInt = (ihi p).toInt * 2 ^ 96 + (ilo p).toNat * 2 ^ 64 + (fhi p).toNat * 2 ^ 32
      + (flo p).toNat := by
  rw [toInt_eq_sign, toNat_eq_limbs, BitVec.toInt_eq_msb_cond, sign_eq_msb_ihi]
  split <;> push_cast <;> ring

theorem sign_iff_toInt_neg (p : Value) : sign p = true ↔ p.toInt < 0 := by
  rw [sign, BitVec.msb_eq_toInt, decide_eq_true_iff]

theorem val_le_val_iff (p q : Value) : val p ≤ val q ↔ p.toInt ≤ q.toInt := by
  rw [val, val, div_le_div_iff_of_pos_right (by positivity), Int.cast_le]

theorem val_neg_iff (p : Value) : val p < 0 ↔ p.toInt < 0 := by
  rw [val, div_lt_iff₀ (by positivity), zero_mul, Int.cast_lt_zero]

/-- Settles O5: the integer reading by limbs, divided by `2^64`; the sign is the top bit of `ihi`. -/
theorem valueIsWeightedLimbs : Obligations.ValueIsWeightedLimbs := by
  refine fun p => ⟨rfl, ?_, limbs_of_limbs p, BitVec.msb_eq_getLsbD_last p, ?_, ?_⟩
  · rw [val, toInt_eq_limbs]
    push_cast
    ring
  · rw [sign_eq_msb_ihi, BitVec.msb_eq_getLsbD_last]
  · rw [sign_iff_toInt_neg, val_neg_iff]

/-! ## The constants -/

theorem toInt_valueMin : valueMin.toInt = -(2 ^ 127 - 1) := by decide

theorem toInt_valueMax : valueMax.toInt = 2 ^ 127 - 1 := by decide

theorem val_valueMax : val valueMax = 2 ^ 63 - 1 / 2 ^ 64 := by
  rw [val, toInt_valueMax]
  norm_num

theorem val_valueMin : val valueMin = -val valueMax := by
  rw [val, val, toInt_valueMin, toInt_valueMax]
  norm_num

/-- Settles O6: from the constants' integers, and their limbs by evaluation. -/
theorem constantsHaveTheirValues : Obligations.ConstantsHaveTheirValues := by
  refine ⟨?_, val_valueMax, ?_, ?_, val_valueMin, toInt_rsv, ?_⟩
  · rw [val_valueMin, val_valueMax]
    ring
  · simp [val, valueZero]
  · rw [val, show valueOne.toInt = 2 ^ 64 by decide]
    norm_num
  · decide

/-! ## Representable patterns -/

theorem representable_iff_ne_rsv (p : Value) : representable p = true ↔ p ≠ rsv := bne_iff_ne

/-- RSV is the one pattern below the symmetric range (R25). -/
theorem representable_iff_toInt (p : Value) :
    representable p = true ↔ -(2 ^ 127 - 1) ≤ p.toInt ∧ p.toInt ≤ 2 ^ 127 - 1 := by
  rw [representable_iff_ne_rsv, Ne, eq_rsv_iff]
  have := toInt_bounds p
  omega

theorem representable_iff_val (p : Value) :
    representable p = true ↔ val valueMin ≤ val p ∧ val p ≤ val valueMax := by
  rw [representable_iff_toInt, val_le_val_iff, val_le_val_iff, toInt_valueMin, toInt_valueMax]

/-- One limb that differs from RSV's is enough. -/
theorem representable_of_ihi_ne {p : Value} (h : ihi p ≠ 0x80000000) : representable p = true :=
  (representable_iff_ne_rsv p).mpr fun e => h (by rw [e]; decide)

theorem representable_of_ilo_ne {p : Value} (h : ilo p ≠ 0) : representable p = true :=
  (representable_iff_ne_rsv p).mpr fun e => h (by rw [e]; decide)

/-! ## Successful results -/

theorem representable_negate {a r : Value} (h : negate a = .ok r) : representable r = true := by
  rw [negate_eq] at h
  split at h
  · cases h
  next ha =>
    cases h
    have hbounds := toInt_bounds a
    have hne := (eq_rsv_iff a).not.mp ha
    rw [representable_iff_toInt, toInt_neg_of_ne_rsv ha]
    omega

/-- A magnitude below `2^63` leaves the sign bit clear. -/
theorem representable_magnitudeLimbs {n : Nat} (h : n < dblOne * 2 ^ 63) :
    representable (magnitudeLimbs n) = true := by
  have hhi : n / (dblOne * 2 ^ 32) < 2 ^ 31 := by
    generalize dblOne = d at h ⊢
    exact Nat.div_lt_of_lt_mul (by rwa [Nat.mul_assoc, ← Nat.pow_add])
  refine representable_of_ihi_ne fun he => ?_
  rw [magnitudeLimbs, ihi_limbs] at he
  have hnat : n / (dblOne * 2 ^ 32) % 2 ^ 32 = 2 ^ 31 := congrArg BitVec.toNat he
  generalize n / (dblOne * 2 ^ 32) = hi at hhi hnat
  omega

theorem representable_doubleToValue {x : Scalar} {r : Value} (h : doubleToValue x = .ok r) :
    representable r = true := by
  unfold doubleToValue at h
  split at h
  · cases h
  · cases h
  next neg n _ =>
    split_ifs at h with hn hneg
    · exact representable_negate h
    · cases h
      exact representable_magnitudeLimbs (Nat.lt_of_not_le hn)

theorem representable_intToValue {x : Scalar} {r : Value} (h : intToValue x = .ok r) :
    representable r = true := by
  simp only [intToValue] at h
  split_ifs at h with ha hneg
  · exact representable_negate h
  · cases h
    exact representable_of_ihi_ne (by simp)

/-- A cleared fraction comes with an `ilo` other than 0, or with an `ihi` that the check has kept from
becoming RSV's. -/
theorem representable_ceiling {a r : Value} (ha : representable a = true)
    (h : ceiling a = .ok r) : representable r = true := by
  simp only [ceiling] at h
  split_ifs at h with hfrac hlo hhi <;> cases h
  · refine representable_of_ihi_ne ?_
    rw [ihi_limbs]
    bv_omega
  · exact representable_of_ilo_ne (by rwa [ilo_limbs])
  · rwa [limbs_of_limbs]

/-- A step of a chain of checks succeeds only when the one before it did. -/
theorem bind_eq_ok {ε α β : Type} {x : Except ε α} {f : α → Except ε β} {r : β}
    (h : x.bind f = .ok r) : ∃ a, x = .ok a ∧ f a = .ok r := by
  cases x with
  | error e => cases h
  | ok a => exact ⟨a, rfl, h⟩

theorem representable_checkNotRsv {x r : Value} (h : checkNotRsv x = .ok r) :
    representable r = true := by
  unfold checkNotRsv at h
  split_ifs at h with hx
  cases h
  exact (representable_iff_ne_rsv x).mpr hx

/-- The engine's last check is the one for RSV. -/
theorem representable_scaledAccumulate {x y r : Value} {m : Int}
    (h : scaledAccumulate x y m = .ok r) : representable r = true := by
  obtain ⟨_, -, h⟩ := bind_eq_ok h
  obtain ⟨_, -, h⟩ := bind_eq_ok h
  obtain ⟨_, -, h⟩ := bind_eq_ok h
  obtain ⟨_, -, h⟩ := bind_eq_ok h
  exact representable_checkNotRsv h

theorem representable_addValues {x y r : Value} (h : addValues x y = .ok r) :
    representable r = true := representable_scaledAccumulate h

theorem representable_subValues {x y r : Value} (h : subValues x y = .ok r) :
    representable r = true := by
  obtain ⟨_, -, h⟩ := bind_eq_ok h
  exact representable_addValues h

/-- Settles O7: RSV is the only pattern out of range, and no operation succeeds with it. -/
theorem successfulResultsAreRepresentable : Obligations.SuccessfulResultsAreRepresentable :=
  ⟨representable_iff_toInt, representable_iff_val, fun _ _ => representable_negate,
    fun _ _ => representable_doubleToValue, fun _ _ => representable_intToValue,
    fun _ _ => representable_ceiling, fun _ _ _ _ => representable_scaledAccumulate,
    fun _ _ _ => representable_addValues, fun _ _ _ => representable_subValues⟩

end Sys2Proof.Machine
end

section
/-! PROOFS. The reset state, and the bounded run of a command that does not use the
stream: presented, left to its latency, taken (spec/70_reset_and_hazards.md R119 to R123, R127). -/

namespace Sys2Proof.Machine

/-- Settles O42: the reset state is written out, so each value is read off it. -/
theorem resetStateValues : Obligations.ResetStateValues :=
  ⟨rfl, rfl, rfl, rfl, rfl, rfl, rfl, rfl, rfl, rfl⟩

/-! ## The transaction of a command that does not use the stream -/

/-- A transaction that needs no answer is a computed response or an ILL response. -/
theorem transaction_nil_eq_some {c : Command} {r : Response} {new : List Transfer}
    (h : transaction c [] = some (r, new)) :
    (∃ i, decode c = .ok i ∧ computed i = some r) ∨
    (∃ e, decode c = .error e ∧ r = .error (rejectCause e)) := by
  unfold transaction at h
  split at h
  next i hd =>
    refine .inl ⟨i, hd, ?_⟩
    cases hi : i.usesStream
    · obtain ⟨r', hr⟩ := computed_of_not_stream hi
      cases (transactionOf_of_computed hr []).symm.trans h
      exact hr
    · cases i with
      | enc a => cases h
      | dec => cases h
      | _ => cases hi
  next e hd =>
    cases h
    exact .inr ⟨e, hd, rfl⟩

/-- Such a command presents the response of its transaction at the edge at which it runs. -/
theorem busyEdge_of_transaction_nil {s : State} {c : Command} {r : Response}
    {new : List Transfer} (h : transaction c [] = some (r, new)) (hc : s.cmd = c)
    (hl : s.latency = 0) : busyEdge s = .next (s.present r) := by
  subst hc
  obtain ⟨i, hd, hr⟩ | ⟨e, hd, rfl⟩ := transaction_nil_eq_some h
  · rw [busyEdge_of_ok hl hd, exec_of_computed hr]
  · exact busyEdge_of_error hl hd

/-! ## The steps of the run -/

section
variable {s : State} {rest : List Pins}

/-- The host presents a command to an IDLE block. -/
theorem step_presentPins {c : Command} (hp : s.phase = .idle) (hh : s.held = none)
    (hi : s.inputs = presentPins c :: rest) :
    step s = .next { s.accept c with inputs := rest, held := none } := by
  have hpins : s.pins = presentPins c := s.pins_cons _ _ hi
  rw [step_of_edge (holdBroken_of_held_none hh) (edge_of_idle (by rw [hpins]; rfl) hp)]
  simp [State.endEdge, State.holdNext, State.cmdReady, hpins, hp, hi, presentPins, Pins.quiet]

/-- The latency is over, and the command presents its response at a quiet edge. -/
theorem step_present {r : Response} (hp : s.phase = .busy) (hh : s.held = none)
    (hi : s.inputs = Pins.quiet :: rest) (hb : busyEdge s = .next (s.present r)) :
    step s = .next { s.present r with inputs := rest, held := none } := by
  have hpins : s.pins = Pins.quiet := s.pins_cons _ _ hi
  rw [step_of_edge (holdBroken_of_held_none hh)
    ((edge_of_busy (by rw [hpins]; rfl) hp).trans hb)]
  simp [State.endEdge, State.holdNext, hpins, hi, Pins.quiet]

/-- The host takes the response. -/
theorem step_takePins (hp : s.phase = .resp) (hh : s.held = none)
    (hi : s.inputs = takePins :: rest) :
    step s = .next { s.take with inputs := rest, held := none } := by
  have hpins : s.pins = takePins := s.pins_cons _ _ hi
  rw [step_of_edge (holdBroken_of_held_none hh) (edge_of_resp (by rw [hpins]; rfl) hp)]
  simp [State.endEdge, State.holdNext, hpins, hi, takePins, Pins.quiet]

end

/-- The run of such a command from IDLE back to IDLE, with the whole state it ends in. -/
theorem run_of_transaction_nil {c : Command} {r : Response} {new : List Transfer} {s : State}
    {rest : List Pins} (h : transaction c [] = some (r, new)) (hp : s.phase = .idle)
    (hh : s.held = none)
    (hi : s.inputs = presentPins c :: List.replicate (Config.waitEdges c + 1) Pins.quiet ++
      takePins :: rest) :
    run (Config.waitEdges c + 3) s = .next { s with
      cmd := c, k := 0, rsp := Response.none, call := .none, responses := s.responses ++ [r]
      latency := 0, inputs := rest, held := none } := by
  have haccept := step_presentPins (c := c)
    (rest := List.replicate (Config.waitEdges c) Pins.quiet ++ Pins.quiet :: takePins :: rest)
    hp hh (by simp [hi, List.replicate_succ'])
  have hwait := run_wait (n := Config.waitEdges c) (rest := Pins.quiet :: takePins :: rest)
    (s := { s.accept c with inputs := _, held := none }) rfl rfl rfl rfl
  calc run (Config.waitEdges c + 3) s
    _ = run (Config.waitEdges c + 2) _ := run_succ_of_step haccept _
    _ = run 2 _ := run_add hwait
    _ = run 1 _ :=
      run_succ_of_step (step_present rfl rfl rfl (busyEdge_of_transaction_nil h rfl rfl)) 1
    _ = run 0 _ := run_succ_of_step (step_takePins rfl rfl rfl) 0
    _ = _ := by simp [State.take, State.present, State.accept, hp]

/-- Settles O50: the four parts of the run, acceptance, latency, response and taking, in order. -/
theorem commandRunCompletes : Obligations.CommandRunCompletes := by
  intro c r s rest h hp hh hi
  refine ⟨_, run_of_transaction_nil h hp hh hi, ?_, rfl, rfl, rfl, rfl, rfl⟩
  simp [State.runEnded, hp]

end Sys2Proof.Machine
end

section
/-! PROOFS. The clocked controller refines the atomic transaction (spec/10_state.md R33). The transfers
of a running command say which answers it has had; when it presents its response, those answers
make the transaction (spec/46_serdes.md R99, R100). -/

namespace Sys2Proof.Machine

/-! ## The transaction for the answers of the fields moved -/

section
variable {k : Nat}

/-- `k` answers `ok`, whose data no write reads (R68). -/
def okAnswers (k : Nat) : List (Option Limb) := List.replicate k (some 0)

/-- The answers that read the first `k` fields of a value. -/
def readAnswers (p : Value) (k : Nat) : List (Option Limb) :=
  (List.range k).map fun n => some (fieldOf p n)

/-- ENC whose call number `k` fails (R99). -/
theorem transactionOf_enc_fail (a : Value) (hk : k < 4) :
    transactionOf (.enc a) (okAnswers k ++ [none]) =
      some (.error .ioWr, okWrites a k ++ [.write (fieldOf a k) false]) := by
  interval_cases k <;> rfl

theorem transactionOf_enc_ok (a : Value) :
    transactionOf (.enc a) (okAnswers 4) = some (.okNothing, okWrites a 4) := rfl

/-- DEC whose call number `k` fails (R100). -/
theorem transactionOf_dec_fail (p : Value) (hk : k < 4) :
    transactionOf .dec (readAnswers p k ++ [none]) =
      some (.error .ioRd, okReads p k ++ [.read none]) := by
  interval_cases k <;> rfl

theorem transactionOf_dec_ok (p : Value) :
    transactionOf .dec (readAnswers p 4) = some (.okR p, okReads p 4) := by
  have h : transactionOf .dec (readAnswers p 4) =
      some (.okR (limbs (ihi p) (ilo p) (fhi p) (flo p)), okReads p 4) := rfl
  rw [h, limbs_of_limbs]

end

/-! ## How far a command latched in `s₀` has come -/

/-- The command is running, and the transfers since `s₀` are those of the fields it has moved. -/
structure State.Running (s₀ : State) (c : Command) (s : State) : Prop where
  phase : s.phase = .busy
  cmd : s.cmd = c
  kBound : s.k < 4
  responses : s.responses = s₀.responses
  transfers : s.transfers = s₀.transfers ++ s.callsDone

/-- Its response is presented, and with the transfers since `s₀` it is a result of the transaction. -/
structure State.Presented (s₀ : State) (c : Command) (s : State) : Prop where
  phase : s.phase = .resp
  responses : s.responses = s₀.responses
  result : ∃ answers new, transaction c answers = some (s.rsp, new) ∧
    s.transfers = s₀.transfers ++ new

/-- The command is running, its response is presented, or it has been taken. -/
def State.Since (s₀ : State) (c : Command) (s : State) : Prop :=
  s₀.Running c s ∨ s₀.Presented c s ∨ s₀.responses.length < s.responses.length

section
variable {s₀ s t : State} {c : Command}

theorem State.Started.running (h : s.Started c) : s.Running c s where
  phase := h.busy
  cmd := h.latched
  kBound := by rw [h.noField]; decide
  responses := rfl
  transfers := by rw [callsDone_of_k_zero h.noField, List.append_nil]

theorem State.Since.endEdge (h : s₀.Since c t) (s : State) : s₀.Since c (s.endEdge t) := by
  obtain ⟨hp, hc, hk, hr, ht⟩ | ⟨hp, hr, hres⟩ | hlen := h
  · exact .inl ⟨hp, hc, hk, hr, ht⟩
  · exact .inr (.inl ⟨hp, hr, hres⟩)
  · exact .inr (.inr hlen)

/-- A running command presents a response that the transaction gives for some answers. -/
theorem State.Running.present (h : s₀.Running c s) {r : Response} {new : List Transfer}
    (hresponses : t.responses = s.responses) (htransfers : t.transfers = s₀.transfers ++ new)
    (answers : List (Option Limb)) (hres : transaction c answers = some (r, new)) :
    s₀.Since c (t.present r) :=
  .inr (.inl ⟨rfl, hresponses.trans h.responses, answers, new, hres, htransfers⟩)

/-- The record of an answered call comes after those of the fields moved. -/
theorem State.Running.transfers_endCall (h : s₀.Running c s) {i : Instr}
    (hd : decode s.cmd = .ok i) (p : Primitive) :
    (s.endCall p).transfers =
      s₀.transfers ++ (callsOf i s.k s.buf ++ [p.transfer s.pins.answer]) := by
  rw [endCall_transfers, h.transfers, callsDone_of_ok hd, List.append_assoc]

/-- A running command that has not completed a call still has the transfers of its fields. -/
theorem State.Running.setCall (h : s₀.Running c s) (x : StreamCall) :
    s₀.Running c { s with call := x } :=
  ⟨h.phase, h.cmd, h.kBound, h.responses, h.transfers⟩

/-- A running command that has moved one more field has its transfer too. -/
theorem State.Running.moveField (h : s₀.Running c s) {i : Instr} (hd : decode s.cmd = .ok i)
    (hk : s.k < 3) {b : ReadBuf} {x : Transfer}
    (hdone : callsOf i (s.k + 1) b = callsOf i s.k s.buf ++ [x]) :
    s₀.Running c (s.moveField b x) where
  phase := h.phase
  cmd := h.cmd
  kBound := Nat.succ_lt_succ hk
  responses := h.responses
  transfers := by
    rw [callsDone_of_ok (s := s.moveField b x) hd]
    show s.transfers ++ [x] = s₀.transfers ++ callsOf i (s.k + 1) b
    rw [hdone, h.transfers, callsDone_of_ok hd, List.append_assoc]

theorem State.Running.execEnc (h : s₀.Running c s) {a : Value} (hd : decode s.cmd = .ok (.enc a))
    (ht : execEnc a s = .next t) : s₀.Since c t := by
  have hcalls := h.transfers_endCall hd (.write (fieldOf a s.k))
  have htransaction := transaction_of_ok (h.cmd ▸ hd)
  obtain ⟨-, he⟩ | ⟨-, hv, he⟩ | ⟨-, ⟨v, hv⟩, hlt, he⟩ | ⟨-, ⟨v, hv⟩, hge, he⟩ :=
    execEnc_cases a s <;> cases ht.symm.trans he
  case inl => exact .inl (h.setCall _)
  case inr.inl =>
    rw [hv] at hcalls
    exact h.present rfl hcalls _ ((htransaction _).trans (transactionOf_enc_fail a h.kBound))
  case inr.inr.inl =>
    rw [endCall_countField]
    refine .inl (h.moveField hd hlt ?_)
    simp [callsOf, okWrites_succ, Primitive.transfer, hv]
  case inr.inr.inr =>
    have hk : s.k = 3 := by have := h.kBound; omega
    rw [hv, hk] at hcalls
    rw [hk]
    exact h.present rfl hcalls _ ((htransaction _).trans (transactionOf_enc_ok a))

theorem State.Running.execDec (h : s₀.Running c s) (hd : decode s.cmd = .ok .dec)
    (ht : execDec s = .next t) : s₀.Since c t := by
  have hcalls := h.transfers_endCall hd .read
  have htransaction := transaction_of_ok (h.cmd ▸ hd)
  obtain ⟨-, he⟩ | ⟨-, hv, he⟩ | ⟨v, -, hv, hlt, he⟩ | ⟨v, -, hv, hge, he⟩ :=
    execDec_cases s <;> cases ht.symm.trans he
  case inl => exact .inl (h.setCall _)
  case inr.inl =>
    rw [hv] at hcalls
    exact h.present rfl hcalls _ ((htransaction _).trans (transactionOf_dec_fail _ h.kBound))
  case inr.inr.inl =>
    rw [endCall_gatherField]
    refine .inl (h.moveField hd hlt ?_)
    simp [callsOf, okReads_put s.buf v h.kBound, Primitive.transfer, hv]
  case inr.inr.inr =>
    have hreads := okReads_put s.buf v h.kBound
    have hk : s.k = 3 := by have := h.kBound; omega
    rw [hv, callsOf, Primitive.transfer, ← hreads, hk] at hcalls
    rw [hk]
    exact h.present rfl hcalls _ ((htransaction _).trans (transactionOf_dec_ok _))

/-- A command that does not use the stream has made no transfer. -/
theorem State.Running.present_of_not_stream (h : s₀.Running c s)
    (hs : s.latchedUsesStream = false) {r : Response} (hres : transaction c [] = some (r, [])) :
    s₀.Since c (s.present r) :=
  h.present rfl (by rw [h.transfers, callsDone_of_not_stream hs]) [] hres

theorem State.Running.exec (h : s₀.Running c s) {i : Instr} (hd : decode s.cmd = .ok i)
    (ht : exec i s = .next t) : s₀.Since c t := by
  cases hi : i.usesStream
  case false =>
    obtain ⟨r, hr⟩ := computed_of_not_stream hi
    cases ht.symm.trans (exec_of_computed hr s)
    refine h.present_of_not_stream ((latchedUsesStream_of_ok hd).trans hi) ?_
    rw [transaction_of_ok (h.cmd ▸ hd), transactionOf_of_computed hr]
  case true =>
    cases i with
    | enc a => exact h.execEnc hd ht
    | dec => exact h.execDec hd ht
    | _ => cases hi

theorem State.Running.busyEdge (h : s₀.Running c s) (ht : busyEdge s = .next t) :
    s₀.Since c t := by
  obtain ⟨left, -, he⟩ | ⟨-, i, hd, he⟩ | ⟨-, e, hd, he⟩ := busyEdge_cases s
  · cases ht.symm.trans he
    exact .inl ⟨h.phase, h.cmd, h.kBound, h.responses, h.transfers⟩
  · exact h.exec hd (he.symm.trans ht)
  · cases ht.symm.trans he
    exact h.present_of_not_stream (latchedUsesStream_of_error hd)
      (transaction_of_error (h.cmd ▸ hd) [])

/-- A presented response stays as it is or is taken. -/
theorem State.Presented.edge (h : s₀.Presented c s) (hr : s.pins.rst = false)
    (ht : edge s = .next t) : s₀.Since c t := by
  cases ht.symm.trans (edge_of_resp hr h.phase)
  split
  · exact .inr (.inr (by simp [h.responses]))
  · exact .inr (.inl h)

theorem State.Since.edge (h : s₀.Since c s) (hr : s.pins.rst = false) (ht : edge s = .next t) :
    s₀.Since c t := by
  obtain hrun | hpres | hlen := h
  · exact hrun.busyEdge ((edge_of_busy hr hrun.phase).symm.trans ht)
  · exact hpres.edge hr ht
  · exact .inr (.inr (hlen.trans_le (edge_responses_length_le ht)))

theorem State.Since.step (h : s₀.Since c s) (hr : s.pins.rst = false) (ht : step s = .next t) :
    s₀.Since c t := by
  obtain ⟨-, u, hu, rfl⟩ := (step_next_iff s t).mp ht
  exact (h.edge hr hu).endEdge s

end

/-! ## Runs without reset -/

theorem State.Since.run {n : Nat} {s₀ s t : State} {c : Command} (h : s₀.Since c s)
    (hn : s.NoReset) (ht : run n s = .next t) : s₀.Since c t := by
  induction n generalizing s with
  | zero => cases ht; exact h
  | succ n ih =>
    obtain ⟨u, hu, hrun⟩ := run_succ_next ht
    exact ih (h.step hn.pins_rst hu) (hn.step hu) hrun

/-- Settles O58: along the run the command is running, presented or taken; the phase and the responses
leave only the presented one, whose answers make the transaction. -/
theorem controllerRefinesTransaction : Obligations.ControllerRefinesTransaction := by
  intro n c s t hs hn ht hp hr
  obtain hrun | hpres | hlen := State.Since.run (.inl hs.running) hn ht
  · cases hrun.phase.symm.trans hp
  · exact hpres.result
  · simp [hr] at hlen

end Sys2Proof.Machine
end

section
/-! PROOFS. Nothing is retained between commands (spec/10_state.md R33, R34): two states that differ
only in what no later edge reads go on alike. In BUSY that is DEC's buffer: its fields read so far are
fixed by the transfers, and those to come are overwritten. -/

namespace Sys2Proof.Machine

/-- Two states that differ only in what the current phase leaves unread: the buffer in BUSY, and all
that belongs to a command outside BUSY. -/
inductive State.LooksLike (s : State) : State → Prop
  | working (hp : s.phase = .busy) (b : ReadBuf) : LooksLike s { s with buf := b }
  | between (hp : s.phase ≠ .busy) (c : Command) (k : Nat) (b : ReadBuf) (l : Nat) :
      LooksLike s { s with cmd := c, k := k, buf := b, latency := l }

/-- Both outcomes go on, with states that look alike. -/
def GoAlike (o o' : Host.Outcome State Fault Refusal) : Prop :=
  ∃ t t', o = .next t ∧ o' = .next t' ∧ t.LooksLike t'

section
variable {s s' : State}

/-! ## What such states agree in -/

namespace State.LooksLike

theorem phase (h : s.LooksLike s') : s'.phase = s.phase := by cases h <;> rfl
theorem pins (h : s.LooksLike s') : s'.pins = s.pins := by cases h <;> rfl
theorem holdBroken (h : s.LooksLike s') : s'.holdBroken = s.holdBroken := by cases h <;> rfl
theorem responses (h : s.LooksLike s') : s'.responses = s.responses := by cases h <;> rfl
theorem transfers (h : s.LooksLike s') : s'.transfers = s.transfers := by cases h <;> rfl

end State.LooksLike

theorem State.sqRequest_of_not_busy (hp : s.phase ≠ .busy) : s.sqRequest = none := by
  unfold sqRequest
  split
  · exact absurd ‹_› hp
  · rfl

theorem State.LooksLike.sqRequest (h : s.LooksLike s') : s'.sqRequest = s.sqRequest := by
  cases h with
  | working hp b => rfl
  | between hp c k b l => rw [sqRequest_of_not_busy hp]; exact sqRequest_of_not_busy hp

theorem State.LooksLike.outputs (h : s.LooksLike s') : s'.outputs = s.outputs := by
  unfold State.outputs
  rw [h.sqRequest]
  cases h <;> rfl

/-! ## The operations of an edge -/

namespace State.LooksLike

theorem endEdge (h : s.LooksLike s') {t t' : State} (ht : t.LooksLike t') :
    (s.endEdge t).LooksLike (s'.endEdge t') := by
  have hs : ∀ u, s'.endEdge u = s.endEdge u := by cases h <;> exact fun _ => rfl
  rw [hs]
  cases ht with
  | working hp b => exact .working (s := s.endEdge t) hp b
  | between hp c k b l => exact .between (s := s.endEdge t) hp c k b l

theorem resetEdge (h : s.LooksLike s') : s.resetEdge.LooksLike s'.resetEdge := by
  cases h <;> exact .between (by simp) _ _ _ _

theorem accept (h : s.LooksLike s') (c : Command) : (s.accept c).LooksLike (s'.accept c) := by
  cases h <;> exact .working rfl _

theorem take (h : s.LooksLike s') : s.take.LooksLike s'.take := by
  cases h <;> exact .between (by simp) _ _ _ _

theorem present (h : s.LooksLike s') (r : Response) : (s.present r).LooksLike (s'.present r) := by
  cases h <;> exact .between (by simp) _ _ _ _

end State.LooksLike

end

/-! ## The buffer of DEC -/

theorem okReads_four_injective {p q : Value} (h : okReads p 4 = okReads q 4) : p = q := by
  rw [← limbs_of_limbs p, ← limbs_of_limbs q]
  simp only [okReads, List.range_succ, List.range_zero, fieldOf, List.nil_append, List.cons_append,
    List.map_cons, List.map_nil, List.cons.injEq, Transfer.read.injEq, Option.some.injEq] at h
  obtain ⟨hihi, hilo, hfhi, hflo, -⟩ := h
  rw [hihi, hilo, hfhi, hflo]

/-- The transfers fix the fields that DEC has read. -/
theorem okReads_eq_of_inv {s : State} {b : ReadBuf} (h : s.Inv) (h' : State.Inv { s with buf := b })
    (hp : s.phase = .busy) (hd : decode s.cmd = .ok .dec) :
    okReads s.buf.value s.k = okReads b.value s.k := by
  obtain ⟨earlier, he⟩ := h.progress hp
  obtain ⟨earlier', he'⟩ := h'.progress hp
  rw [State.callsDone_of_ok hd] at he
  rw [State.callsDone_of_ok (s := { s with buf := b }) hd] at he'
  exact List.append_inj_right' (he.symm.trans he') (by simp [okReads])

/-- Both buffers spell the same value when the fourth field is read. -/
theorem value_put_eq_of_inv {s : State} {b : ReadBuf} (h : s.Inv)
    (h' : State.Inv { s with buf := b }) (hp : s.phase = .busy) (hd : decode s.cmd = .ok .dec)
    (hk : s.k = 3) (v : Limb) : (s.buf.put 3 v).value = (b.put 3 v).value := by
  have hreads := okReads_eq_of_inv h h' hp hd
  rw [hk] at hreads
  apply okReads_four_injective
  rw [okReads_put _ v (by decide), okReads_put _ v (by decide), hreads]

/-! ## One edge in BUSY with another buffer -/

section
variable {s : State} {b : ReadBuf}

/-- ENC neither reads nor writes the buffer. -/
theorem execEnc_goAlike (a : Value) (hp : s.phase = .busy) :
    GoAlike (execEnc a s) (execEnc a { s with buf := b }) := by
  obtain ⟨ha, he⟩ | ⟨ha, hv, he⟩ | ⟨ha, ⟨v, hv⟩, hk, he⟩ | ⟨ha, ⟨v, hv⟩, hk, he⟩ :=
    execEnc_cases a s
  · exact ⟨_, _, he, execEnc_of_pending (s := { s with buf := b }) ha a,
      .working (s := { s with call := s.nextCall }) hp b⟩
  · exact ⟨_, _, he, execEnc_of_fail (s := { s with buf := b }) ha hv a,
      .between (by simp) _ _ b _⟩
  · exact ⟨_, _, he, execEnc_of_ok (s := { s with buf := b }) ha hv hk a,
      .working (s := (s.endCall _).countField) hp b⟩
  · exact ⟨_, _, he, execEnc_of_last (s := { s with buf := b }) ha hv hk a,
      .between (by simp) _ _ b _⟩

/-- DEC shows its buffer only in the response after the fourth field. -/
theorem execDec_goAlike (h : s.Inv) (h' : State.Inv { s with buf := b }) (hp : s.phase = .busy)
    (hd : decode s.cmd = .ok .dec) : GoAlike (execDec s) (execDec { s with buf := b }) := by
  obtain ⟨ha, he⟩ | ⟨ha, hv, he⟩ | ⟨v, ha, hv, hk, he⟩ | ⟨v, ha, hv, hk, he⟩ := execDec_cases s
  · exact ⟨_, _, he, execDec_of_pending (s := { s with buf := b }) ha,
      .working (s := { s with call := s.nextCall }) hp b⟩
  · exact ⟨_, _, he, execDec_of_fail (s := { s with buf := b }) ha hv,
      .between (by simp) _ _ b _⟩
  · exact ⟨_, _, he, execDec_of_ok (s := { s with buf := b }) ha hv hk,
      .working (s := (s.endCall _).gatherField v) hp (b.put s.k v)⟩
  · have hk3 : s.k = 3 := by have := h.kBusy hp; omega
    have hvalue : (b.put s.k v).value = (s.buf.put s.k v).value := by
      rw [hk3, value_put_eq_of_inv h h' hp hd hk3]
    refine ⟨_, _, he, execDec_of_last (s := { s with buf := b }) ha hv hk, ?_⟩
    simp only [hvalue]
    exact .between (by simp) _ _ (b.put s.k v) _

theorem exec_goAlike {i : Instr} (h : s.Inv) (h' : State.Inv { s with buf := b })
    (hp : s.phase = .busy) (hd : decode s.cmd = .ok i) :
    GoAlike (exec i s) (exec i { s with buf := b }) := by
  cases hi : i.usesStream
  case false =>
    obtain ⟨r, hr⟩ := computed_of_not_stream hi
    exact ⟨_, _, exec_of_computed hr s, exec_of_computed hr _,
      (State.LooksLike.working hp b).present r⟩
  case true =>
    cases i with
    | enc a => exact execEnc_goAlike a hp
    | dec => exact execDec_goAlike h h' hp hd
    | _ => cases hi

theorem busyEdge_goAlike (h : s.Inv) (h' : State.Inv { s with buf := b }) (hp : s.phase = .busy) :
    GoAlike (busyEdge s) (busyEdge { s with buf := b }) := by
  obtain ⟨left, hl, he⟩ | ⟨hl, i, hd, he⟩ | ⟨hl, e, hd, he⟩ := busyEdge_cases s
  · exact ⟨_, _, he, busyEdge_of_wait (s := { s with buf := b }) hl,
      .working (s := s.waitEdge left) hp b⟩
  · rw [he, busyEdge_of_ok (s := { s with buf := b }) hl hd]
    exact exec_goAlike h h' hp hd
  · exact ⟨_, _, he, busyEdge_of_error (s := { s with buf := b }) hl hd,
      (State.LooksLike.working hp b).present _⟩

end

/-! ## An edge, a step and a run -/

section
variable {s s' : State}

theorem edge_goAlike (h : s.Inv) (h' : s'.Inv) (hl : s.LooksLike s') :
    GoAlike (edge s) (edge s') := by
  cases hr : s.pins.rst
  case true => exact ⟨_, _, edge_of_rst hr, edge_of_rst (by rw [hl.pins, hr]), hl.resetEdge⟩
  case false =>
    have hr' : s'.pins.rst = false := by rw [hl.pins, hr]
    cases hp : s.phase
    case idle =>
      refine ⟨_, _, edge_of_idle hr hp, edge_of_idle hr' (hl.phase.trans hp), ?_⟩
      rw [hl.pins]
      split
      · exact hl.accept _
      · exact hl
    case busy =>
      rw [edge_of_busy hr hp, edge_of_busy hr' (hl.phase.trans hp)]
      cases hl with
      | working _ b => exact busyEdge_goAlike h h' hp
      | between hb => exact absurd hp hb
    case resp =>
      refine ⟨_, _, edge_of_resp hr hp, edge_of_resp hr' (hl.phase.trans hp), ?_⟩
      rw [hl.pins]
      split
      · exact hl.take
      · exact hl

theorem observe_run_eq (n : Nat) (h : s.Inv) (h' : s'.Inv) (hl : s.LooksLike s') :
    observe (run n s) = observe (run n s') := by
  induction n generalizing s s' with
  | zero => simp only [run_zero, observe, hl.outputs, hl.responses, hl.transfers]
  | succ n ih =>
    cases hb : s.holdBroken
    case true =>
      simp [run, step_of_holdBroken hb, step_of_holdBroken (hl.holdBroken.trans hb), observe]
    case false =>
      obtain ⟨t, t', ht, ht', hlt⟩ := edge_goAlike h h' hl
      have hs := step_of_edge hb ht
      have hs' := step_of_edge (hl.holdBroken.trans hb) ht'
      rw [run_succ_of_step hs, run_succ_of_step hs']
      exact ih (h.step hs) (h'.step hs') (hl.endEdge hlt)

end

/-- Two IDLE states of the invariant with the same run so far and the same pins to come differ only in
what a command leaves behind. -/
theorem looksLike_of_idle {s s' : State} (h : s.Inv) (h' : s'.Inv) (hp : s.phase = .idle)
    (hp' : s'.phase = .idle) (hresponses : s.responses = s'.responses)
    (htransfers : s.transfers = s'.transfers) (hinputs : s.inputs = s'.inputs)
    (hheld : s.held = s'.held) : s.LooksLike s' := by
  have hb : s.phase ≠ .busy := by simp [hp]
  have hb' : s'.phase ≠ .busy := by simp [hp']
  have hrsp : s.rsp = s'.rsp := by rw [h.rspZero (by simp [hp]), h'.rspZero (by simp [hp'])]
  have hcall : s.call = s'.call := by rw [h.call_eq_none hb, h'.call_eq_none hb']
  have he : s' = { s with cmd := s'.cmd, k := s'.k, buf := s'.buf, latency := s'.latency } := by
    rw [hp.trans hp'.symm, hrsp, hcall, hresponses, htransfers, hinputs, hheld]
  rw [he]
  exact .between hb _ _ _ _

/-- Settles O59: states that differ only in leftovers keep looking alike, step by step. -/
theorem nothingIsRetained : Obligations.NothingIsRetained :=
  fun n _ _ h h' hp hp' hresponses htransfers hinputs hheld =>
    observe_run_eq n h h' (looksLike_of_idle h h' hp hp' hresponses htransfers hinputs hheld)

end Sys2Proof.Machine
end

section
/-! PROOFS. The two bit layouts of the memory chapter: the big-endian byte image of a value
(spec/20_memory.md R38 to R40) and what a binary64 pattern encodes (R42). -/

namespace Sys2Proof.Machine

/-! ## The image of a value -/

/-- A slice of a slice is a slice: a byte of a field is a byte of the pattern. -/
theorem extractLsb'_extractLsb' {w : Nat} (x : BitVec w) {start len start' len' : Nat}
    (h : start' + len' ≤ len) :
    (x.extractLsb' start len).extractLsb' start' len' = x.extractLsb' (start + start') len' := by
  ext i hi
  have hlt : start' + i < len := by omega
  simp [hlt, Nat.add_assoc]

/-- Settles O36: each byte of the image is a byte of a limb, and each limb a slice of the pattern. -/
theorem imageIsBigEndian : Obligations.ImageIsBigEndian := by
  refine fun p => ⟨rfl, fun j hj => ?_, by decide⟩
  interval_cases j <;>
    simp [image, fieldBytes, ihi, ilo, fhi, flo, extractLsb'_extractLsb']

/-! ## Binary64 -/

/-- A subnormal's fraction field counts its units. -/
theorem subnormal_units (f : ℕ) : (f : ℚ) / 2 ^ 1074 = f / 2 ^ 52 / 2 ^ 1022 := by
  rw [div_div, ← pow_add]

/-- The units of a normal number of biased exponent `d + 1`, `1022 = 1023 - 1`. -/
theorem normal_units (f d : ℕ) :
    (((2 ^ 52 + f) * 2 ^ d : ℕ) : ℚ) / 2 ^ 1074 =
      (1 + f / 2 ^ 52) * 2 ^ (((d + 1 : ℕ) : ℤ) - 1023) := by
  have hexp : (2 : ℚ) ^ (((d + 1 : ℕ) : ℤ) - 1023) = 2 ^ d / 2 ^ 1022 := by
    rw [show ((d + 1 : ℕ) : ℤ) - 1023 = (d : ℤ) - (1022 : ℕ) by push_cast; ring,
      zpow_sub₀ two_ne_zero, zpow_natCast, zpow_natCast]
  have hfrac : (1 + f / 2 ^ 52 : ℚ) = (2 ^ 52 + f) / 2 ^ 52 := by
    rw [add_div, div_self (by norm_num)]
  rw [hexp, hfrac, div_mul_div_comm, ← pow_add]
  push_cast
  rfl

/-- Settles O8: by the three ranges of the exponent field; the units of the two finite ones are exact
multiples of `2^-1074`. -/
theorem binary64Layout : Obligations.Binary64Layout := by
  intro v e f s
  have hdbl : dbl v = if e = 2047 then (if f = 0 then .inf s else .nan)
      else if e = 0 then .finite s f else .finite s ((2 ^ 52 + f) * 2 ^ (e - 1)) := by
    rw [show s = v.msb from (BitVec.msb_eq_getLsbD_last v).symm]
    rfl
  rw [hdbl]
  refine ⟨fun he hf => ?_, fun he hf => ?_, fun he => ⟨f, ?_, subnormal_units f⟩,
    fun hpos hmax => ?_⟩
  · rw [if_pos he, if_neg hf]
  · rw [if_pos he, if_pos hf]
  · rw [if_neg (by omega), if_pos he]
  · obtain ⟨d, hd⟩ := Nat.exists_eq_add_of_le' hpos
    refine ⟨_, by rw [if_neg hmax.ne, if_neg hpos.ne'], ?_⟩
    rw [hd]
    exact normal_units f d

end Sys2Proof.Machine
end

section
/-! PROOFS. What one edge of an instruction can do to the state, and what it leaves unchanged
(spec/20_memory.md R44, R45; spec/46_serdes.md R99, R100). -/

namespace Sys2Proof.Machine

/-- An instruction presents its computed response, moves its stream call on, ends with a failed call, or
moves one more field, the last one with a response. Only DEC puts the field into its buffer. -/
theorem exec_cases {i : Instr} {s t : State} (h : exec i s = .next t) :
    (i.usesStream = false ∧ ∃ r, t = s.present r) ∨
    (i.usesStream = true ∧ ¬s.answeredNow ∧ t = { s with call := s.nextCall }) ∨
    (i.usesStream = true ∧ s.answeredNow ∧ ∃ p r, t = (s.endCall p).present r) ∨
    (i.usesStream = true ∧ s.answeredNow ∧ ∃ b x, (i ≠ .dec → b = s.buf) ∧
      (t = s.moveField b x ∨ ∃ r, t = (s.moveField b x).present r)) := by
  cases hi : i.usesStream
  case false =>
    obtain ⟨r, hr⟩ := computed_of_not_stream hi
    cases h.symm.trans (exec_of_computed hr s)
    exact .inl ⟨rfl, r, rfl⟩
  case true =>
    right
    cases i with
    | enc a =>
      obtain ⟨ha, he⟩ | ⟨ha, -, he⟩ | ⟨ha, -, -, he⟩ | ⟨ha, -, -, he⟩ := execEnc_cases a s <;>
        cases h.symm.trans he
      · exact .inl ⟨rfl, ha, rfl⟩
      · exact .inr (.inl ⟨rfl, ha, _, _, rfl⟩)
      · exact .inr (.inr ⟨rfl, ha, s.buf, _, fun _ => rfl, .inl rfl⟩)
      · exact .inr (.inr ⟨rfl, ha, s.buf, _, fun _ => rfl, .inr ⟨_, rfl⟩⟩)
    | dec =>
      obtain ⟨ha, he⟩ | ⟨ha, -, he⟩ | ⟨v, ha, -, -, he⟩ | ⟨v, ha, -, -, he⟩ := execDec_cases s <;>
        cases h.symm.trans he
      · exact .inl ⟨rfl, ha, rfl⟩
      · exact .inr (.inl ⟨rfl, ha, _, _, rfl⟩)
      · exact .inr (.inr ⟨rfl, ha, _, _, fun hne => absurd rfl hne, .inl rfl⟩)
      · exact .inr (.inr ⟨rfl, ha, _, _, fun hne => absurd rfl hne, .inr ⟨_, rfl⟩⟩)
    | _ => cases hi

/-- Settles O38: each of the moves that an instruction has names the fields it changes. -/
theorem execFrame : Obligations.ExecFrame := by
  intro i s t h
  obtain ⟨-, r, rfl⟩ | ⟨hi, -, rfl⟩ | ⟨hi, -, p, r, rfl⟩ | ⟨hi, -, b, x, hb, rfl | ⟨r, rfl⟩⟩ :=
    exec_cases h
  · exact ⟨rfl, rfl, rfl, rfl, rfl, fun _ => ⟨rfl, rfl, rfl, rfl, rfl⟩, fun _ => rfl,
      ⟨[], by simp⟩, fun _ hp => (nomatch hp)⟩
  · exact ⟨rfl, rfl, rfl, rfl, rfl, fun hs => (nomatch hi.symm.trans hs), fun _ => rfl,
      ⟨[], by simp⟩, fun _ _ => rfl⟩
  · exact ⟨rfl, rfl, rfl, rfl, rfl, fun hs => (nomatch hi.symm.trans hs), fun _ => rfl,
      ⟨[_], rfl, le_rfl⟩, fun _ hp => (nomatch hp)⟩
  · exact ⟨rfl, rfl, rfl, rfl, rfl, fun hs => (nomatch hi.symm.trans hs), hb,
      ⟨[x], rfl, le_rfl⟩, fun _ _ => rfl⟩
  · exact ⟨rfl, rfl, rfl, rfl, rfl, fun hs => (nomatch hi.symm.trans hs), hb,
      ⟨[x], rfl, le_rfl⟩, fun _ hp => (nomatch hp)⟩

end Sys2Proof.Machine
end

section
/-! PROOFS. An OK response of ENC or DEC comes with the transfers of its four fields: the invariant has
those of the first three, and the edge that presents the response adds the fourth
(spec/20_memory.md R39, R48; spec/46_serdes.md R99, R100). -/

namespace Sys2Proof.Machine

/-- A step that presents a response of a latched command has run it. -/
theorem exec_of_step_presents {i : Instr} {s t : State} (hp : s.phase = .busy)
    (hd : decode s.cmd = .ok i) (ht : step s = .next t) (htp : t.phase = .resp) :
    ∃ u, exec i s = .next u ∧ t = s.endEdge u := by
  obtain ⟨-, u, hu, rfl⟩ := (step_next_iff s t).mp ht
  refine ⟨u, ?_, rfl⟩
  cases hr : s.pins.rst
  case true =>
    cases hu.symm.trans (edge_of_rst hr)
    cases htp
  case false =>
    rw [edge_of_busy hr hp] at hu
    cases hl : s.latency with
    | zero => rwa [busyEdge_of_ok hl hd] at hu
    | succ left =>
      cases hu.symm.trans (busyEdge_of_wait hl)
      cases hp.symm.trans htp

section
variable {s t : State}

/-- The record of an answered call comes right after those of the fields moved. -/
theorem State.Inv.transfers_endCall {i : Instr} (h : s.Inv) (hp : s.phase = .busy)
    (hd : decode s.cmd = .ok i) (p : Primitive) :
    ∃ earlier, (s.endCall p).transfers =
      earlier ++ (callsOf i s.k s.buf ++ [p.transfer s.pins.answer]) := by
  obtain ⟨earlier, he⟩ := h.progress hp
  exact ⟨earlier, by rw [endCall_transfers, he, callsDone_of_ok hd, List.append_assoc]⟩

theorem okWrites_of_execEnc_ok {a : Value} (h : s.Inv) (hp : s.phase = .busy)
    (hd : decode s.cmd = .ok (.enc a)) (ht : execEnc a s = .next t) (htp : t.phase = .resp)
    (hok : t.rsp.st = 0b00) : ∃ earlier, t.transfers = earlier ++ okWrites a 4 := by
  have hk := h.kBusy hp
  obtain ⟨-, he⟩ | ⟨-, -, he⟩ | ⟨-, -, -, he⟩ | ⟨-, ⟨v, hv⟩, hlast, he⟩ := execEnc_cases a s <;>
    cases ht.symm.trans he
  case inl | inr.inr.inl => cases hp.symm.trans htp
  case inr.inl => cases hok
  case inr.inr.inr =>
    have hk3 : s.k = 3 := by omega
    obtain ⟨earlier, hcalls⟩ := h.transfers_endCall hp hd (.write (fieldOf a s.k))
    rw [hv, hk3] at hcalls
    rw [hk3]
    exact ⟨earlier, hcalls⟩

theorem okReads_of_execDec_ok (h : s.Inv) (hp : s.phase = .busy)
    (hd : decode s.cmd = .ok .dec) (ht : execDec s = .next t) (htp : t.phase = .resp)
    (hok : t.rsp.st = 0b00) : ∃ earlier, t.transfers = earlier ++ okReads t.rsp.r 4 := by
  have hk := h.kBusy hp
  obtain ⟨-, he⟩ | ⟨-, -, he⟩ | ⟨v, -, -, -, he⟩ | ⟨v, -, hv, hlast, he⟩ := execDec_cases s <;>
    cases ht.symm.trans he
  case inl | inr.inr.inl => cases hp.symm.trans htp
  case inr.inl => cases hok
  case inr.inr.inr =>
    have hk3 : s.k = 3 := by omega
    obtain ⟨earlier, hcalls⟩ := h.transfers_endCall hp hd .read
    rw [hv, callsOf, Primitive.transfer, ← okReads_put s.buf v hk, hk3] at hcalls
    rw [hk3]
    exact ⟨earlier, hcalls⟩

end

/-- Settles O37: the step has run the latched command, whose OK response comes with the fourth field. -/
theorem streamResponsesMatchTransfers : Obligations.StreamResponsesMatchTransfers := by
  intro s t h hp ht htp hok
  constructor
  · intro hd
    obtain ⟨u, hu, rfl⟩ := exec_of_step_presents hp hd ht htp
    exact okReads_of_execDec_ok (t := u) h hp hd hu htp hok
  · intro a hd
    obtain ⟨u, hu, rfl⟩ := exec_of_step_presents hp hd ht htp
    exact okWrites_of_execEnc_ok (t := u) h hp hd hu htp hok

end Sys2Proof.Machine
end

section
/-! PROOFS. The encoding: the 392 bits of a command and its five fields, the opcode map both ways, and
the words that select no operation (spec/30_encoding.md R53 to R61, R66). -/

namespace Sys2Proof

/-! ## The 392 bits of a command -/

theorem Command.ofBits_toBits (c : Command) : ofBits c.toBits = c := by
  have hlast {v w : Nat} {hi : BitVec v} {lo : BitVec w} :=
    BitVec.extractLsb'_append_eq_right (a := hi) (b := lo)
  have hskip {v w start len : Nat} {hi : BitVec v} {lo : BitVec w} (h : w ≤ start) :=
    BitVec.extractLsb'_append_eq_of_le (xhi := hi) (xlo := lo) (len := len) h
  obtain ⟨word, a, b, m, s⟩ := c
  simp only [ofBits, toBits, mk.injEq]
  refine ⟨hlast, ?_, ?_, ?_, ?_⟩
  · exact (hskip (by decide)).trans hlast
  · exact (hskip (by decide)).trans ((hskip (by decide)).trans hlast)
  · exact (hskip (by decide)).trans
      ((hskip (by decide)).trans ((hskip (by decide)).trans hlast))
  · exact (hskip (by decide)).trans
      ((hskip (by decide)).trans ((hskip (by decide)).trans BitVec.extractLsb'_append_eq_left))

theorem Command.toBits_ofBits (v : BitVec 392) : (ofBits v).toBits = v := by
  have hglue := @BitVec.extractLsb'_append_extractLsb'_eq_extractLsb' 392
  simp only [ofBits, toBits]
  rw [hglue, hglue, hglue, hglue, BitVec.extractLsb'_eq_self] <;> rfl

/-- A slice of a number's lowest `w` bits is the number shifted down, cut to the slice's length. -/
theorem extractLsb'_ofNat_eq_shiftRight {w start len : Nat} (h : start + len ≤ w) (v : Nat) :
    (BitVec.ofNat w v).extractLsb' start len = BitVec.ofNat len (v >>> start) := by
  ext i hi
  have hlt : start + i < w := by omega
  simp [← BitVec.getLsbD_eq_getElem, BitVec.getLsbD_ofNat, hi, hlt]

theorem Command.ofTableWord_eq_ofBits (nbits w : Nat) :
    ofTableWord nbits w = ofBits (BitVec.ofNat 392 (w % 2 ^ nbits)) := by
  simp [ofTableWord, ofBits, extractLsb'_ofNat_eq_shiftRight]

/-- Settles O1: the slices of the 392 bits are the fields, and decoding inverts encoding on fields. -/
theorem decodeOfEncodedBits : Obligations.DecodeOfEncodedBits :=
  ⟨fun i => by rw [Command.ofBits_toBits, decode_encode], Command.ofBits_toBits,
    Command.toBits_ofBits, Command.ofTableWord_eq_ofBits⟩

/-! ## What decoding can do -/

/-- With `RES` zero the command word is its opcode. -/
theorem CmdWord.eq_ofNat_of_op {w : CmdWord} {n : Nat} (hres : w.extractLsb' 4 4 = 0)
    (hop : (w.extractLsb' 0 4).toNat = n) : w = BitVec.ofNat 8 n := by
  have hhigh := congrArg BitVec.toNat hres
  simp only [BitVec.extractLsb'_toNat, Nat.shiftRight_eq_div_pow] at hhigh hop
  bv_omega

/-- Decoding rejects the reserved bits, then the four reserved opcodes, and otherwise answers an
instruction with the command's word. -/
theorem decode_cases (c : Command) :
    (c.word.extractLsb' 4 4 ≠ 0 ∧ decode c = .error .reservedBits) ∨
    ((c.word = 0x00 ∨ c.word = 0x0D ∨ c.word = 0x0E ∨ c.word = 0x0F) ∧
      decode c = .error .reservedOpcode) ∨
    ∃ i, c.word = (encode i).word ∧ decode c = .ok i := by
  by_cases hres : c.word.extractLsb' 4 4 = 0
  case neg => exact .inl ⟨hres, decode_of_res c hres⟩
  case pos =>
    right
    have hword {n : Nat} := CmdWord.eq_ofNat_of_op (n := n) hres
    simp only [decode, hres, ne_eq, not_true_eq_false, if_false]
    split
    case h_13 =>
      refine .inl ⟨?_, rfl⟩
      have hlt := (c.word.extractLsb' 0 4).isLt
      simp only [imp_false] at *
      have hop : (c.word.extractLsb' 0 4).toNat = 0 ∨ (c.word.extractLsb' 0 4).toNat = 13 ∨
          (c.word.extractLsb' 0 4).toNat = 14 ∨ (c.word.extractLsb' 0 4).toNat = 15 := by omega
      exact hop.imp hword (.imp hword (.imp hword hword))
    all_goals
      refine .inr ⟨_, ?_, rfl⟩
      exact hword ‹_›

/-! ## The opcode map -/

/-- The instruction of the same kind whose operands are the fields of `c` that this kind reads (R58). -/
def Instr.readFrom (c : Command) : Instr → Instr
  | .neg _ => .neg c.a
  | .cmp _ _ => .cmp c.a c.b
  | .cvtdv _ => .cvtdv c.s
  | .cvtiv _ => .cvtiv c.s
  | .cvtvd _ => .cvtvd c.a
  | .cvtvi _ => .cvtvi c.a
  | .ceil _ => .ceil c.a
  | .addmult _ _ _ => .addmult c.a c.b c.m
  | .add _ _ => .add c.a c.b
  | .sub _ _ => .sub c.a c.b
  | .enc _ => .enc c.a
  | .dec => .dec

theorem decode_of_word {c : Command} {i : Instr} (h : c.word = (encode i).word) :
    decode c = .ok (i.readFrom c) := by
  obtain ⟨word, a, b, m, s⟩ := c
  dsimp only at h; subst h
  cases i <;> simp [encode,Instr.readFrom]

theorem decode_eq_ok_iff (c : Command) (i : Instr) :
    decode c = .ok i ↔ c.word = (encode i).word ∧ i.readFrom c = i := by
  constructor
  · intro hd
    obtain ⟨-, he⟩ | ⟨-, he⟩ | ⟨j, hw, he⟩ := decode_cases c <;> cases he.symm.trans hd
    exact ⟨hw, Except.ok.inj ((decode_of_word hw).symm.trans hd)⟩
  · rintro ⟨hw, hi⟩
    rw [decode_of_word hw, hi]

/-- Settles O2: the word of each instruction, and its operands read from the command. -/
theorem opcodeMapSelectsByCommandWord : Obligations.OpcodeMapSelectsByCommandWord := by
  intro c i
  rw [decode_eq_ok_iff]
  cases i <;> simp [encode, Instr.readFrom]

/-! ## The words that select no operation -/

theorem decode_of_unassigned {c : Command}
    (h : c.word = 0x00 ∨ c.word = 0x0D ∨ c.word = 0x0E ∨ c.word = 0x0F) :
    decode c = .error .reservedOpcode := by
  obtain h | h | h | h := h <;> simp [decode, h]

theorem Command.wellFormed_of_decode {c : Command} {i : Instr} (hd : decode c = .ok i) :
    c.wellFormed = true := by
  have hword := ((decode_eq_ok_iff c i).mp hd).1
  rw [wellFormed, hword]
  exact wellFormed_encode i

theorem Command.not_wellFormed_of_res {c : Command} (h : c.word.extractLsb' 4 4 ≠ 0) :
    c.wellFormed = false := by
  have hclear : CmdWord.resClear c.word = false := beq_eq_false_iff_ne.mpr h
  rw [wellFormed, hclear, Bool.false_and]

theorem Command.not_wellFormed_of_unassigned {c : Command}
    (h : c.word = 0x00 ∨ c.word = 0x0D ∨ c.word = 0x0E ∨ c.word = 0x0F) :
    c.wellFormed = false := by
  obtain h | h | h | h := h <;> simp [wellFormed, CmdWord.opAssigned, h]

theorem decode_eq_reservedBits_iff (c : Command) :
    decode c = .error .reservedBits ↔ c.word.extractLsb' 4 4 ≠ 0 := by
  refine ⟨fun hd => ?_, decode_of_res c⟩
  obtain ⟨hres, -⟩ | ⟨-, he⟩ | ⟨i, -, he⟩ := decode_cases c
  · exact hres
  all_goals cases he.symm.trans hd

theorem decode_eq_reservedOpcode_iff (c : Command) :
    decode c = .error .reservedOpcode ↔
      c.word = 0x00 ∨ c.word = 0x0D ∨ c.word = 0x0E ∨ c.word = 0x0F := by
  refine ⟨fun hd => ?_, decode_of_unassigned⟩
  obtain ⟨-, he⟩ | ⟨hop, -⟩ | ⟨i, -, he⟩ := decode_cases c
  case inr.inl => exact hop
  all_goals cases he.symm.trans hd

theorem exists_decode_eq_ok_iff (c : Command) :
    (∃ i, decode c = .ok i) ↔ c.wellFormed = true := by
  refine ⟨fun ⟨_, hd⟩ => Command.wellFormed_of_decode hd, fun hwf => ?_⟩
  obtain ⟨hres, -⟩ | ⟨hop, -⟩ | ⟨i, -, hd⟩ := decode_cases c
  · cases hwf.symm.trans (Command.not_wellFormed_of_res hres)
  · cases hwf.symm.trans (Command.not_wellFormed_of_unassigned hop)
  · exact ⟨i, hd⟩

/-- Settles O3: the two rejections and the well-formed commands are the cases of decoding. -/
theorem reservedWordsAreRejected : Obligations.ReservedWordsAreRejected := fun c =>
  ⟨decode_eq_reservedBits_iff c, decode_eq_reservedOpcode_iff c, exists_decode_eq_ok_iff c⟩

/-! ## Sample words -/

/-- Settles O4: each word decodes by the rule of its opcode, or is rejected for its reserved bits. -/
theorem sampleWordsDecode : Obligations.SampleWordsDecode :=
  ⟨decode_neg .., decode_cmp .., decode_cvtdv .., decode_ceil .., decode_addmult ..,
    decode_sub .., decode_dec .., decode_of_res _ (by decide), decode_encode _, decode_encode _⟩

end Sys2Proof
end

section
/-! PROOFS. The latched command at an edge: a word that selects no operation is answered ILL, fields
that are not read change nothing, and the stream requests of ENC and DEC
(spec/30_encoding.md R58 to R60, R67, R68; spec/70_reset_and_hazards.md R124). -/

namespace Sys2Proof.Machine

/-! ## ILL responses and the host's reading of a response -/

/-- A latched word that is rejected is answered with the rejection's cause. -/
theorem step_of_reject {s : State} {e : Reject} (hp : s.phase = .busy) (hl : s.latency = 0)
    (hr : s.pins.rst = false) (hh : s.holdBroken = false) (hd : decode s.cmd = .error e) :
    step s = .next (s.endEdge (s.present (.error (rejectCause e)))) :=
  step_of_edge hh ((edge_of_busy hr hp).trans (busyEdge_of_error hl hd))

/-- Settles O41: both kinds of illegal words are rejected, and the rejection is presented. -/
theorem illegalCommandResponse : Obligations.IllegalCommandResponse := fun s hp hl hr hh =>
  ⟨fun hres => step_of_reject hp hl hr hh (decode_of_res s.cmd hres),
    fun hop => step_of_reject hp hl hr hh (decode_of_unassigned hop)⟩

theorem Response.error_st_ne_zero (c : Cause) : (Response.error c).st ≠ 0 := by
  cases c <;> decide

/-- Settles O57: an error response is not OK, and each success is. -/
theorem hostKeepsOperandOnError : Obligations.HostKeepsOperandOnError :=
  ⟨fun c _ _ _ => have hst := Response.error_st_ne_zero c
    ⟨if_neg hst, if_neg hst, if_neg hst⟩,
    fun _ _ => rfl, fun _ _ => rfl, fun _ _ => rfl⟩

/-! ## Fields that are not read -/

section
variable {s t : State}

theorem execEnc_setCmd {a : Value} (h : execEnc a s = .next t) (c : Command) :
    execEnc a { s with cmd := c } = .next { t with cmd := c } := by
  obtain ⟨ha, he⟩ | ⟨ha, hv, he⟩ | ⟨ha, ⟨v, hv⟩, hk, he⟩ | ⟨ha, ⟨v, hv⟩, hk, he⟩ :=
    execEnc_cases a s <;> cases h.symm.trans he
  · exact execEnc_of_pending (s := { s with cmd := c }) ha a
  · exact execEnc_of_fail (s := { s with cmd := c }) ha hv a
  · exact execEnc_of_ok (s := { s with cmd := c }) ha hv hk a
  · exact execEnc_of_last (s := { s with cmd := c }) ha hv hk a

theorem execDec_setCmd (h : execDec s = .next t) (c : Command) :
    execDec { s with cmd := c } = .next { t with cmd := c } := by
  obtain ⟨ha, he⟩ | ⟨ha, hv, he⟩ | ⟨v, ha, hv, hk, he⟩ | ⟨v, ha, hv, hk, he⟩ :=
    execDec_cases s <;> cases h.symm.trans he
  · exact execDec_of_pending (s := { s with cmd := c }) ha
  · exact execDec_of_fail (s := { s with cmd := c }) ha hv
  · exact execDec_of_ok (s := { s with cmd := c }) ha hv hk
  · exact execDec_of_last (s := { s with cmd := c }) ha hv hk

/-- An instruction neither reads nor writes the latched command. -/
theorem exec_setCmd {i : Instr} (h : exec i s = .next t) (c : Command) :
    exec i { s with cmd := c } = .next { t with cmd := c } := by
  cases hi : i.usesStream
  case false =>
    obtain ⟨r, hr⟩ := computed_of_not_stream hi
    cases h.symm.trans (exec_of_computed hr s)
    exact exec_of_computed hr _
  case true =>
    cases i with
    | enc a => exact execEnc_setCmd h c
    | dec => exact execDec_setCmd h c
    | _ => cases hi

theorem busyEdge_setCmd {i : Instr} {c : Command} (hd : decode s.cmd = .ok i)
    (hc : decode c = .ok i) (h : busyEdge s = .next t) :
    busyEdge { s with cmd := c } = .next { t with cmd := c } := by
  obtain ⟨left, hl, he⟩ | ⟨hl, j, hj, he⟩ | ⟨-, e, hj, -⟩ := busyEdge_cases s
  · cases h.symm.trans he
    exact busyEdge_of_wait (s := { s with cmd := c }) hl
  · cases hd.symm.trans hj
    exact (busyEdge_of_ok (s := { s with cmd := c }) hl hc).trans
      (exec_setCmd (he.symm.trans h) c)
  · cases hd.symm.trans hj

theorem edge_setCmd {i : Instr} {c : Command} (hp : s.phase = .busy) (hd : decode s.cmd = .ok i)
    (hc : decode c = .ok i) (h : edge s = .next t) :
    edge { s with cmd := c } = .next { t with cmd := c } := by
  cases hr : s.pins.rst
  case true =>
    cases h.symm.trans (edge_of_rst hr)
    exact edge_of_rst (s := { s with cmd := c }) hr
  case false =>
    rw [edge_of_busy hr hp] at h
    exact (edge_of_busy (s := { s with cmd := c }) hr hp).trans (busyEdge_setCmd hd hc h)

end

/-- Settles O60: the edge moves both states alike, and the hold duty does not read the latched
command. -/
theorem unreadFieldsChangeNothing : Obligations.UnreadFieldsChangeNothing := by
  intro s c i hp hd hc
  cases hb : s.holdBroken
  case true =>
    rw [step_of_holdBroken hb]
    exact step_of_holdBroken (s := { s with cmd := c }) hb
  case false =>
    obtain ⟨t, ht⟩ := edge_next s
    rw [step_of_edge hb ht]
    exact step_of_edge (s := { s with cmd := c }) hb (edge_setCmd hp hd hc ht)

/-! ## The request channel -/

theorem Primitive.wdata_request_ne_none_iff (p : Primitive) :
    p.request.wdata ≠ none ↔ p.request.write = true := by
  cases p <;> simp [request]

theorem primitiveOf_isSome (i : Instr) (k : Nat) : (primitiveOf i k).isSome = i.usesStream := by
  cases i <;> rfl

section
variable {s t : State}

theorem State.nextPrimitive_isSome (s : State) : s.nextPrimitive.isSome = s.latchedUsesStream := by
  unfold nextPrimitive latchedUsesStream
  cases decode s.cmd with
  | ok i => exact primitiveOf_isSome i s.k
  | error e => rfl

theorem State.nextPrimitive_of_ok {i : Instr} (hd : decode s.cmd = .ok i) :
    s.nextPrimitive = primitiveOf i s.k := by
  simp [nextPrimitive, hd]

theorem State.sqRequest_of_requested (hp : s.phase = .busy) (hc : s.call = .requested) :
    s.sqRequest = s.nextPrimitive.map Primitive.request := by
  simp [sqRequest, hp, hc]

/-- A request is driven exactly in BUSY of an ENC or DEC that has raised it. -/
theorem State.sqRequest_isSome_iff (s : State) : s.sqRequest.isSome = true ↔
    s.phase = .busy ∧ s.call = .requested ∧ s.latchedUsesStream = true := by
  rw [← nextPrimitive_isSome]
  unfold sqRequest
  split <;> simp_all

/-- A driven request is that of a primitive. -/
theorem State.exists_request_of_sqRequest {r : SqRequest} (h : s.sqRequest = some r) :
    ∃ p : Primitive, r = p.request := by
  obtain ⟨hp, hc, -⟩ := s.sqRequest_isSome_iff.mp (by simp [h])
  rw [sqRequest_of_requested hp hc, Option.map_eq_some_iff] at h
  obtain ⟨p, -, rfl⟩ := h
  exact ⟨p, rfl⟩

@[simp] theorem State.sqRequest_endEdge (s t : State) : (s.endEdge t).sqRequest = t.sqRequest := rfl

/-- A request that is not taken is held (R124): the latched command waits or its call is pending. -/
theorem State.sqRequest_of_step (hv : s.sqRequest.isSome = true) (hq : s.pins.sqReady = false)
    (hr : s.pins.rst = false) (ht : step s = .next t) : t.sqRequest = s.sqRequest := by
  obtain ⟨hp, hc, hs⟩ := s.sqRequest_isSome_iff.mp hv
  obtain ⟨-, u, hu, rfl⟩ := (step_next_iff s t).mp ht
  rw [edge_of_busy hr hp] at hu
  rw [sqRequest_endEdge]
  obtain ⟨left, -, he⟩ | ⟨-, i, hd, he⟩ | ⟨-, e, hd, -⟩ := busyEdge_cases s
  · cases hu.symm.trans he
    rfl
  · rw [latchedUsesStream_of_ok hd] at hs
    have hpending : ¬s.answeredNow := by simp [answeredNow, hc]
    have hnext : s.nextCall = s.call := by simp [nextCall, hc, hq]
    obtain ⟨hi, -⟩ | ⟨-, -, rfl⟩ | ⟨-, ha, -⟩ | ⟨-, ha, -⟩ := exec_cases (he.symm.trans hu)
    · cases hi.symm.trans hs
    · rw [hnext]
    · exact absurd ha hpending
    · exact absurd ha hpending
  · cases (latchedUsesStream_of_error hd).symm.trans hs

theorem State.outputs_sqWdata_ne_none_iff (s : State) :
    s.outputs.sqWdata ≠ none ↔ s.outputs.sqWrite = some true := by
  cases hq : s.sqRequest with
  | none => simp [outputs, hq]
  | some r =>
    obtain ⟨p, rfl⟩ := exists_request_of_sqRequest hq
    simpa [outputs, hq] using p.wdata_request_ne_none_iff

/-- The request that a latched instruction has raised is that of its next primitive. -/
theorem State.sqRequest_of_ok {i : Instr} (hd : decode s.cmd = .ok i) (hp : s.phase = .busy)
    (hc : s.call = .requested) : s.sqRequest = (primitiveOf i s.k).map Primitive.request := by
  rw [sqRequest_of_requested hp hc, nextPrimitive_of_ok hd]

end

/-- Settles O46: the request outputs are read off the pending request, which an edge without
`sq_ready` keeps. -/
theorem streamRequestChannel : Obligations.StreamRequestChannel := by
  intro s
  refine ⟨s.sqRequest_isSome_iff, rfl, ?_, s.outputs_sqWdata_ne_none_iff, ?_, ?_, ?_⟩
  · simp [State.outputs, Option.isSome_iff_ne_none]
  · intro a hd hp hc
    simp [State.outputs, State.sqRequest_of_ok hd hp hc, primitiveOf, Primitive.request]
  · intro hd hp hc
    simp [State.outputs, State.sqRequest_of_ok hd hp hc, primitiveOf, Primitive.request]
  · intro t hv hq hr ht
    have hkept := State.sqRequest_of_step hv hq hr ht
    exact ⟨(congrArg Option.isSome hkept).trans hv, congrArg (Option.map _) hkept,
      congrArg (Option.bind · _) hkept⟩

end Sys2Proof.Machine
end

section
/-! PROOFS. The negation helper's closed form and NEG's response (spec/40_negate.md R71 to R74). On
every pattern but RSV the helper is two's complement negation (`negate_of_ne_rsv`), and RSV is not
among its results, so a second application succeeds too. -/

namespace Sys2Proof.Machine

/-- Two's complement negation in the form of R72. -/
theorem neg_eq_ofNat_sub (p : Value) : -p = BitVec.ofNat 128 (2 ^ 128 - p.toNat) := by
  apply BitVec.eq_of_toNat_eq
  rw [BitVec.toNat_neg, BitVec.toNat_ofNat]

section
variable {p : Value}

theorem neg_eq_ofInt_of_ne_rsv (h : p ≠ rsv) : -p = BitVec.ofInt 128 (-p.toInt) := by
  rw [← toInt_neg_of_ne_rsv h, BitVec.ofInt_toInt]

theorem val_neg_of_ne_rsv (h : p ≠ rsv) : val (-p) = -val p := by
  simp only [val, toInt_neg_of_ne_rsv h, Int.cast_neg, neg_div]

theorem representable_neg_of_ne_rsv (h : p ≠ rsv) : representable (-p) = true :=
  representable_negate (negate_of_ne_rsv h)

/-- A second application negates back (R74): the first result is not RSV. -/
theorem negate_neg_of_ne_rsv (h : p ≠ rsv) : negate (-p) = .ok p := by
  have hne : -p ≠ rsv := (representable_iff_ne_rsv _).mp (representable_neg_of_ne_rsv h)
  rw [negate_of_ne_rsv hne, neg_neg]

end

/-- Settles O10: on every pattern but RSV the helper's result is `-p`, and the three constants are
not RSV. -/
theorem negationClosedForm : Obligations.NegationClosedForm :=
  ⟨fun p h => ⟨-p, negate_of_ne_rsv h, neg_eq_ofNat_sub p, toInt_neg_of_ne_rsv h,
      val_neg_of_ne_rsv h, representable_neg_of_ne_rsv h, negate_neg_of_ne_rsv h⟩,
    negate_rsv, negate_of_ne_rsv (by decide), negate_of_ne_rsv (by decide),
    negate_of_ne_rsv (by decide)⟩

/-- NEG's response: OVF(NEG_RSV) with zeros for RSV, and otherwise OK with the negated value (R73). -/
theorem ofR_negate (a : Value) : Response.ofR (negate a) =
    if a = rsv then ⟨0b01, 0x1, 0, 0, 0⟩ else ⟨0b00, 0x0, BitVec.ofInt 128 (-a.toInt), 0, 0⟩ := by
  by_cases h : a = rsv
  case pos => rw [if_pos h, h, negate_rsv]; rfl
  case neg => rw [if_neg h, ← neg_eq_ofInt_of_ne_rsv h, negate_of_ne_rsv h]; rfl

/-- Settles O11: NEG does nothing but present the response of its computation. -/
theorem negResponse : Obligations.NegResponse := fun a b m x s =>
  ⟨decode_neg a b m x, by rw [exec_of_computed rfl s, ofR_negate]; rfl⟩

end Sys2Proof.Machine
end

section
/-! PROOFS. The comparator as the signed order (spec/41_compare.md R75 to R78). Equal sign bits
leave the lexicographic order of the limbs, which is the order of the unsigned numbers they spell
(`compareLimbs_eq_order`); these differ from the signed ones by the same constant (R77). -/

namespace Sys2Proof.Machine

/-! ## The outcome of comparing two elements of a linear order -/

/-- The outcome of R75 that two elements of a linear order have: the sign of their difference. -/
def CmpResult.order {α : Type} [LinearOrder α] (m n : α) : CmpResult :=
  if m < n then .less else if n < m then .greater else .equal

namespace CmpResult

section
variable {α β : Type} [LinearOrder α] [LinearOrder β] {m n : α}

theorem order_of_lt (h : m < n) : order m n = .less := if_pos h

theorem order_of_gt (h : n < m) : order m n = .greater := by
  rw [order, if_neg h.not_gt, if_pos h]

@[simp] theorem order_self (m : α) : order m m = .equal := by
  rw [order, if_neg (lt_irrefl m), if_neg (lt_irrefl m)]

theorem order_swap (m n : α) : order n m = (order m n).swap := by
  obtain h | rfl | h := lt_trichotomy m n
  · rw [order_of_lt h, order_of_gt h, swap]
  · rw [order_self, swap]
  · rw [order_of_lt h, order_of_gt h, swap]

/-- Each outcome holds in exactly its own case. -/
theorem order_iff (m n : α) :
    (order m n = .less ↔ m < n) ∧ (order m n = .equal ↔ m = n) ∧
      (order m n = .greater ↔ n < m) := by
  obtain h | rfl | h := lt_trichotomy m n
  · simp [order_of_lt h, h, h.ne, h.le]
  · simp
  · simp [order_of_gt h, h, h.ne', h.le]

theorem order_ne_greater_iff : order m n ≠ .greater ↔ m ≤ n := by
  obtain ⟨-, -, hgreater⟩ := order_iff m n
  rw [ne_eq, hgreater, not_lt]

/-- Two readings that order their elements alike have one outcome. -/
theorem order_congr {m' n' : β} (h : m < n ↔ m' < n') (h' : n < m ↔ n' < m') :
    order m n = order m' n' := by
  simp only [order, h, h']

end

end CmpResult

open CmpResult

/-! ## The limbs in the order in which they are compared -/

/-- The number that limbs spell, the most significant one first. -/
def limbsNumber : List Limb → Nat
  | [] => 0
  | l :: ls => l.toNat * (2 ^ 32) ^ ls.length + limbsNumber ls

/-- A larger leading digit outweighs everything below it. -/
theorem mul_add_lt_of_digit_lt {p q a b w : Nat} (hp : p < q) (ha : a < w) :
    p * w + a < q * w + b :=
  calc p * w + a < p * w + w := by omega
    _ = (p + 1) * w := (Nat.succ_mul p w).symm
    _ ≤ q * w := Nat.mul_le_mul_right w hp
    _ ≤ q * w + b := Nat.le_add_right _ _

theorem limbsNumber_lt (ls : List Limb) : limbsNumber ls < (2 ^ 32) ^ ls.length := by
  induction ls with
  | nil => exact Nat.one_pos
  | cons l ls ih =>
    rw [limbsNumber, List.length_cons, pow_succ' (2 ^ 32)]
    exact mul_add_lt_of_digit_lt (b := 0) l.isLt ih

/-- The limb comparison is the order of the numbers that the two sides spell (R77). -/
theorem compareLimbs_eq_order (ps : List (Limb × Limb)) :
    compareLimbs ps = order (limbsNumber (ps.map Prod.fst)) (limbsNumber (ps.map Prod.snd)) := by
  induction ps with
  | nil => rfl
  | cons pq rest ih =>
    obtain ⟨p, q⟩ := pq
    have ha := limbsNumber_lt (rest.map Prod.fst)
    have hb := limbsNumber_lt (rest.map Prod.snd)
    simp only [compareLimbs, limbsNumber, List.map_cons, List.length_map] at ha hb ⊢
    obtain h | h | h := lt_trichotomy p.toNat q.toNat
    · rw [if_pos h, order_of_lt (mul_add_lt_of_digit_lt h ha)]
    · rw [h, if_neg (lt_irrefl _), if_neg (lt_irrefl _), ih]
      exact order_congr (Nat.add_lt_add_iff_left).symm (Nat.add_lt_add_iff_left).symm
    · rw [if_neg h.not_gt, if_pos h, order_of_gt (mul_add_lt_of_digit_lt h hb)]

theorem limbsNumber_of_value (p : Value) : limbsNumber [ihi p, ilo p, fhi p, flo p] = p.toNat := by
  rw [toNat_eq_limbs]
  simp only [limbsNumber, List.length_cons, List.length_nil]
  ring

/-! ## The comparator -/

/-- For operands of one sign the comparison of R75 is that of the unsigned numbers. -/
theorem compareValues_of_sign_eq {x y : Value} (h : sign x = sign y) :
    compareValues x y = order x.toNat y.toNat := by
  rw [← limbsNumber_of_value x, ← limbsNumber_of_value y, compareValues, h, Bool.and_not_self,
    Bool.not_and_self]
  exact compareLimbs_eq_order _

/-- A negative pattern lies below a non-negative one, whatever their magnitudes. -/
theorem toInt_lt_of_sign {x y : Value} (hx : sign x = true) (hy : sign y = false) :
    x.toInt < y.toInt :=
  ((sign_iff_toInt_neg x).mp hx).trans_le (by
    rw [← not_lt, ← sign_iff_toInt_neg, hy]; exact Bool.false_ne_true)

/-- R77: the comparison is the signed order of the patterns. The sign bits decide between a negative
and a non-negative operand. -/
theorem compareValues_eq_order (x y : Value) : compareValues x y = order x.toInt y.toInt := by
  cases hsx : sign x <;> cases hsy : sign y
  case true.false =>
    rw [order_of_lt (toInt_lt_of_sign hsx hsy), compareValues, hsx, hsy]; rfl
  case false.true =>
    rw [order_of_gt (toInt_lt_of_sign hsy hsx), compareValues, hsx, hsy]; rfl
  case true.true | false.false =>
    rw [compareValues_of_sign_eq (hsx.trans hsy.symm), toInt_eq_sign x, toInt_eq_sign y, hsx, hsy]
    exact order_congr (by omega) (by omega)

theorem val_lt_val_iff (x y : Value) : val x < val y ↔ x.toInt < y.toInt :=
  lt_iff_lt_of_le_iff_le (val_le_val_iff y x)

/-- The order of the patterns is the order of their values (R77). -/
theorem compareValues_eq_order_val (x y : Value) : compareValues x y = order (val x) (val y) :=
  (compareValues_eq_order x y).trans
    (order_congr (val_lt_val_iff x y).symm (val_lt_val_iff y x).symm)

/-- Settles O13: the comparison is `order` of the signed readings, and of the values. -/
theorem compareOrderLaws : Obligations.CompareOrderLaws := by
  refine ⟨fun x y => ?_, fun x y => ?_, fun x => ?_, fun x y => ?_, fun x y z hxy hyz => ?_⟩
  · rw [compareValues_eq_order]
    exact order_iff _ _
  · rw [compareValues_eq_order_val]
    exact order_iff _ _
  · rw [compareValues_eq_order, order_self]
  · rw [compareValues_eq_order, compareValues_eq_order, order_swap]
  · rw [compareValues_eq_order, order_ne_greater_iff] at *
    exact hxy.trans hyz

/-- CMP's response: CR holds the code of the signed order (R65, R76). -/
theorem okCr_compareValues (a b : Value) : Response.okCr (compareValues a b).code =
    if a.toInt < b.toInt then ⟨0b00, 0x0, 0, 0, 0b11⟩
    else if a.toInt = b.toInt then ⟨0b00, 0x0, 0, 0, 0b00⟩
    else ⟨0b00, 0x0, 0, 0, 0b01⟩ := by
  rw [compareValues_eq_order]
  obtain h | h | h := lt_trichotomy a.toInt b.toInt
  · rw [order_of_lt h, if_pos h]; rfl
  · rw [h, order_self, if_neg (lt_irrefl _), if_pos rfl]; rfl
  · rw [order_of_gt h, if_neg h.not_gt, if_neg h.ne']; rfl

/-- Settles O12: CMP does nothing but present the response of its computation. -/
theorem cmpResponse : Obligations.CmpResponse := fun a b m x s =>
  ⟨decode_cmp a b m x, by rw [exec_of_computed rfl s, okCr_compareValues]; rfl⟩

end Sys2Proof.Machine
end

section
/-! PROOFS. The conversions into values, CVTDV and CVTIV (spec/42_convert.md R80 to R82). Both form a
magnitude below `2^63` and give it to the negation helper, which does not fail there
(`negate_ofNat_of_lt`). CVTDV's greedy decomposition gives the magnitude's floor in units of `2^-64`
(`magnitudeLimbs_eq_ofNat`). -/

namespace Sys2Proof.Machine

/-- A magnitude below `2^63` takes its sign from the negation helper. -/
theorem negate_ofNat_of_lt {n : Nat} (h : n < 2 ^ 127) (neg : Prop) [Decidable neg] :
    (if neg then negate (BitVec.ofNat 128 n) else .ok (BitVec.ofNat 128 n)) =
      .ok (BitVec.ofInt 128 (if neg then -n else n)) := by
  have hne : BitVec.ofNat 128 n ≠ rsv := fun he => by
    have hnat : n % 2 ^ 128 = 2 ^ 127 := congrArg BitVec.toNat he
    omega
  split
  case isTrue => rw [negate_of_ne_rsv hne, BitVec.ofInt_neg, BitVec.ofInt_natCast]
  case isFalse => rw [BitVec.ofInt_natCast]

/-! ## The decomposition of CVTDV -/

/-- The unit `2^-64` of a value, in units of `2^-1074`. -/
def valueUnit : Nat := 2 ^ 1010

theorem dblOne_eq_mul : dblOne = valueUnit * 2 ^ 64 := by rw [dblOne, valueUnit, ← Nat.pow_add]

/-- Taking away the digit at the weight `w` leaves the remainder by `w`. -/
theorem mod_mul_sub_digit (u w b : Nat) : u % (w * b) - u / w % b * w = u % w := by
  rw [← Nat.mod_mul_right_div_self, ← Nat.mod_eq_sub_div_mul, Nat.mod_mul_right_mod]

/-- R80's greedy decomposition gives the digits of the magnitude in base `2^32`: what is left before
each limb is the remainder by the weight of the limb before. -/
theorem magnitudeLimbs_eq_digits (u : Nat) :
    magnitudeLimbs u = limbs (BitVec.ofNat 32 (u / (valueUnit * 2 ^ 96)))
      (BitVec.ofNat 32 (u / (valueUnit * 2 ^ 64) % 2 ^ 32))
      (BitVec.ofNat 32 (u / (valueUnit * 2 ^ 32) % 2 ^ 32))
      (BitVec.ofNat 32 (u / valueUnit % 2 ^ 32)) := by
  unfold magnitudeLimbs
  rw [dblOne_eq_mul]
  generalize valueUnit = w
  have hb : 0 < 2 ^ 32 := by decide
  rw [show 2 ^ 96 = 2 ^ 32 * 2 ^ 32 * 2 ^ 32 by decide, show 2 ^ 64 = 2 ^ 32 * 2 ^ 32 by decide]
  generalize 2 ^ 32 = b at *
  have hweight (n : Nat) : n * (w * b * b) / b = n * (w * b) := by
    rw [← Nat.mul_assoc, Nat.mul_div_cancel _ hb]
  have hunits (n : Nat) : n * (b * b) / (w * b * b) = n / w := by
    rw [Nat.mul_assoc w, Nat.mul_div_mul_right _ _ (Nat.mul_pos hb hb)]
  simp only [← Nat.mul_assoc w, ← Nat.mod_eq_sub_div_mul, Nat.mod_mul_right_div_self,
    mod_mul_sub_digit, Nat.mul_div_mul_right _ _ hb, hweight, hunits]

/-- These are the limbs of the magnitude's floor in units of `2^-64`. -/
theorem magnitudeLimbs_eq_ofNat (u : Nat) :
    magnitudeLimbs u = BitVec.ofNat 128 (u / valueUnit) := by
  have hdiv (k : Nat) : u / (valueUnit * 2 ^ k) = u / valueUnit / 2 ^ k :=
    (Nat.div_div_eq_div_mul ..).symm
  rw [magnitudeLimbs_eq_digits, hdiv, hdiv, hdiv,
    ← limbs_of_limbs (BitVec.ofNat 128 (u / valueUnit))]
  generalize u / valueUnit = t
  congr 1 <;> apply BitVec.eq_of_toNat_eq <;>
    simp only [toNat_ihi, toNat_ilo, toNat_fhi, toNat_flo, BitVec.toNat_ofNat] <;> omega

/-! ## CVTDV -/

theorem two_pow_63_le_units_iff (u : Nat) :
    (2 : ℚ) ^ 63 ≤ (u : ℚ) / 2 ^ 1074 ↔ dblOne * 2 ^ 63 ≤ u := by
  rw [le_div_iff₀ (by positivity), mul_comm, dblOne, ← Nat.cast_le (α := ℚ), Nat.cast_mul,
    Nat.cast_pow, Nat.cast_pow, Nat.cast_ofNat]

/-- The floor of R81, in the model's units. -/
theorem floor_units (u : Nat) : ⌊(u : ℚ) / 2 ^ 1074 * 2 ^ 64⌋ = (u / valueUnit : Nat) := by
  have hunits : (u : ℚ) / 2 ^ 1074 * 2 ^ 64 = (u : ℚ) / (valueUnit : Nat) := by
    rw [show (1074 : Nat) = 1010 + 64 from rfl, pow_add, ← div_div,
      div_mul_cancel₀ _ (by positivity), valueUnit, Nat.cast_pow, Nat.cast_ofNat]
  rw [hunits, Rat.floor_natCast_div_natCast, Int.natCast_ediv]

/-- CVTDV's computation on a finite double in its closed form (R81). -/
theorem doubleToValue_of_finite {x : Scalar} {neg : Bool} {u : Nat} (h : dbl x = .finite neg u) :
    doubleToValue x = if dblOne * 2 ^ 63 ≤ u then .error .d2vRange
      else .ok (BitVec.ofInt 128 (if neg then -(u / valueUnit : Nat) else (u / valueUnit : Nat))) := by
  have hlt (hu : ¬dblOne * 2 ^ 63 ≤ u) : u / valueUnit < 2 ^ 127 := by
    rw [dblOne_eq_mul] at hu
    generalize valueUnit = w at hu ⊢
    exact Nat.div_lt_of_lt_mul (by omega)
  simp only [doubleToValue, h, magnitudeLimbs_eq_ofNat]
  split
  case isTrue => rfl
  case isFalse hu => exact negate_ofNat_of_lt (hlt hu) neg

/-- Settles O14: CVTDV presents the response of its computation, in each class of its operand. -/
theorem cvtdvResponse : Obligations.CvtdvResponse := by
  refine fun a b m x s => ⟨decode_cvtdv a b m x, fun h => ?_, fun neg h => ?_, fun neg u h => ?_⟩
  · rw [exec_of_computed rfl s, doubleToValue, h]; rfl
  · rw [exec_of_computed rfl s, doubleToValue, h]; rfl
  · rw [exec_of_computed rfl s, doubleToValue_of_finite h]
    simp only [floor_units, two_pow_63_le_units_iff]
    split <;> rfl

/-! ## CVTIV -/

theorem limbs_ilo_eq_ofNat {n : Nat} (h : n < 2 ^ 32) :
    limbs 0 (BitVec.ofNat 32 n) 0 0 = BitVec.ofNat 128 (n * 2 ^ 64) := by
  apply BitVec.eq_of_toNat_eq
  simp only [toNat_limbs, BitVec.ofNat_eq_ofNat, BitVec.toNat_ofNat]
  omega

/-- CVTIV's computation: the exact integer (R82). -/
theorem intToValue_eq (x : Scalar) : intToValue x = if 2 ^ 32 - 1 < |x.toInt| then .error .i2vRange
    else .ok (BitVec.ofInt 128 (x.toInt * 2 ^ 64)) := by
  have hrange : Config.i2vMagMax < x.toInt.natAbs ↔ 2 ^ 32 - 1 < |x.toInt| := by
    rw [Int.abs_eq_natAbs, Config.i2vMagMax]
    omega
  simp only [intToValue, hrange]
  split
  case isTrue => rfl
  case isFalse h =>
    have hlt : x.toInt.natAbs < 2 ^ 32 := by
      rw [Int.abs_eq_natAbs] at h
      omega
    rw [limbs_ilo_eq_ofNat hlt, negate_ofNat_of_lt (by omega)]
    congr 2
    split <;> omega

/-- Settles O15: CVTIV does nothing but present the response of its computation. -/
theorem cvtivResponse : Obligations.CvtivResponse := by
  refine fun a b m x s => ⟨decode_cvtiv a b m x, ?_⟩
  rw [exec_of_computed rfl s, intToValue_eq]
  split <;> rfl

end Sys2Proof.Machine
end

section
/-! PROOFS. CVTVD (spec/42_convert.md R83, R84). The operand's magnitude is rounded once in units of
`2^-64`, where only integers are candidates; the doubles are also finer, so the rounding is carried to
units of `2^-1074`, which it commutes with (`rne64_mul_two_pow`). The result's significand is read
from its normal form `sig * 2^log2`, which is unique. -/

namespace Sys2Proof.Machine

/-! ## Numbers of 53 bits in their normal form -/

theorem log2_mul_two_pow {n : Nat} (hn : n ≠ 0) (k : Nat) : (n * 2 ^ k).log2 = n.log2 + k := by
  have hk : 0 < 2 ^ k := Nat.two_pow_pos k
  rw [Nat.log2_eq_iff (Nat.mul_ne_zero hn hk.ne'), Nat.pow_add, Nat.add_right_comm, Nat.pow_add]
  exact ⟨Nat.mul_le_mul_right _ (Nat.log2_self_le hn),
    Nat.mul_lt_mul_of_pos_right Nat.lt_log2_self hk⟩

/-- A number of 53 bits other than 0 has a significand whose leading bit is bit 52. -/
theorem FitsSig53.exists_normal {r : Nat} (h : FitsSig53 r) (hr : r ≠ 0) :
    ∃ sig, 2 ^ 52 ≤ sig ∧ sig < 2 ^ 53 ∧ r * 2 ^ 52 = sig * 2 ^ r.log2 := by
  obtain ⟨a, t, ha, rfl⟩ := h
  have ha0 : a ≠ 0 := left_ne_zero_of_mul hr
  obtain ⟨d, hd⟩ := Nat.exists_eq_add_of_le' (show a.log2 ≤ 52 by
    have := (Nat.log2_lt ha0).2 ha
    omega)
  have hlog : (a * 2 ^ d).log2 = 52 := by rw [log2_mul_two_pow ha0, hd, Nat.add_comm]
  rw [Nat.log2_eq_iff (Nat.mul_ne_zero ha0 (Nat.two_pow_pos d).ne')] at hlog
  refine ⟨a * 2 ^ d, hlog.1, hlog.2, ?_⟩
  rw [log2_mul_two_pow ha0, hd]
  ring

/-- The normal form is unique. -/
theorem sig_eq_of_mul_two_pow_eq {a b j k : Nat} (ha : 2 ^ 52 ≤ a) (ha' : a < 2 ^ 53)
    (hb : 2 ^ 52 ≤ b) (hb' : b < 2 ^ 53) (h : a * 2 ^ j = b * 2 ^ k) : a = b := by
  have hlog (n : Nat) (hn : 2 ^ 52 ≤ n) (hn' : n < 2 ^ 53) : n.log2 = 52 :=
    (Nat.log2_eq_iff (by omega)).2 ⟨hn, hn'⟩
  have hjk := congrArg Nat.log2 h
  rw [log2_mul_two_pow (by omega), log2_mul_two_pow (by omega), hlog a ha ha', hlog b hb hb'] at hjk
  obtain rfl : j = k := by omega
  exact Nat.eq_of_mul_eq_mul_right (Nat.two_pow_pos j) h

/-! ## Doubles -/

/-- A finite double is a number of 53 bits. -/
theorem fitsSig53_of_dbl {w : Scalar} {neg : Bool} {u : Nat} (h : dbl w = .finite neg u) :
    FitsSig53 u := by
  have hf : (w.extractLsb' 0 52).toNat < 2 ^ 52 := (w.extractLsb' 0 52).isLt
  simp only [dbl] at h
  split_ifs at h
  · cases h
    exact ⟨_, 0, by omega, (Nat.mul_one _).symm⟩
  · cases h
    exact ⟨_, _, by omega, rfl⟩

/-- What a pattern of given fields encodes, in the normal range (R42). -/
theorem dbl_ofNat_fields (neg : Bool) {e f : Nat} (hpos : 0 < e) (he : e < 2047) (hf : f < 2 ^ 52) :
    dbl (BitVec.ofNat 64 ((if neg then 2 ^ 63 else 0) + e * 2 ^ 52 + f)) =
      .finite neg ((2 ^ 52 + f) * 2 ^ (e - 1)) := by
  generalize hv : BitVec.ofNat 64 ((if neg then 2 ^ 63 else 0) + e * 2 ^ 52 + f) = v
  have hnat : v.toNat = (if neg then 2 ^ 63 else 0) + e * 2 ^ 52 + f := by
    rw [← hv, BitVec.toNat_ofNat]
    split <;> omega
  have hneg : v.msb = neg := by
    rw [BitVec.msb_eq_decide]
    cases neg
    case true => rw [if_pos rfl] at hnat; exact decide_eq_true (by omega)
    case false => rw [if_neg Bool.false_ne_true] at hnat; exact decide_eq_false (by omega)
  have hexp : (v.extractLsb' 52 11).toNat = e := by
    rw [BitVec.extractLsb'_toNat, hnat, Nat.shiftRight_eq_div_pow]
    split <;> omega
  have hfrac : (v.extractLsb' 0 52).toNat = f := by
    rw [BitVec.extractLsb'_toNat, hnat, Nat.shiftRight_zero]
    split <;> omega
  simp only [dbl, hneg, hexp, hfrac, if_neg he.ne, if_neg hpos.ne']

/-- `bits64` of a number of 53 bits, by its normal form. -/
theorem bits64_of_normal (neg : Bool) {r sig : Nat} (hr : r ≠ 0)
    (h : r * 2 ^ 52 = sig * 2 ^ r.log2) :
    bits64 neg r = BitVec.ofNat 64
      ((if neg then 2 ^ 63 else 0) + (r.log2 + 959) * 2 ^ 52 + (sig - 2 ^ 52)) := by
  simp only [bits64, if_neg hr, h, Nat.mul_div_cancel _ (Nat.two_pow_pos _)]

theorem dbl_bits64 (neg : Bool) {r : Nat} (h : FitsSig53 r) (hlt : r < 2 ^ 128) :
    dbl (bits64 neg r) = .finite neg (r * valueUnit) := by
  by_cases hr : r = 0
  case pos => subst hr; rw [Nat.zero_mul]; cases neg <;> decide
  case neg =>
    obtain ⟨sig, hlo, hhi, hsig⟩ := h.exists_normal hr
    have hlog := (Nat.log2_lt hr).2 hlt
    have hscale (k : Nat) : sig * 2 ^ (r.log2 + k) = r * 2 ^ (52 + k) := by
      rw [Nat.pow_add, Nat.pow_add, ← Nat.mul_assoc, ← hsig, Nat.mul_assoc]
    rw [bits64_of_normal neg hr hsig, dbl_ofNat_fields neg (by omega) (by omega) (by omega),
      Nat.add_sub_assoc (by decide), Nat.add_sub_cancel' hlo, hscale, valueUnit]

/-- An even significand leaves bit 0 clear. -/
theorem getLsbD_zero_bits64 (neg : Bool) {r k : Nat} (h : FitsSig53 r)
    (heven : HasEvenSig53 (r * 2 ^ k)) : (bits64 neg r).getLsbD 0 = false := by
  obtain ⟨sig', sh, hhi', hlo', hmod, hsig'⟩ := heven
  have hr : r ≠ 0 := by
    rintro rfl
    have hpos : 0 < sig' * 2 ^ sh := Nat.mul_pos (by omega) (Nat.two_pow_pos sh)
    omega
  obtain ⟨sig, hlo, hhi, hsig⟩ := h.exists_normal hr
  obtain rfl : sig = sig' := by
    refine sig_eq_of_mul_two_pow_eq hlo hhi hlo' hhi' (j := r.log2 + k) (k := sh + 52) ?_
    rw [Nat.pow_add, Nat.pow_add, ← Nat.mul_assoc, ← hsig, ← Nat.mul_assoc, ← hsig']
    ring
  rw [bits64_of_normal neg hr hsig, BitVec.getLsbD_ofNat, Nat.testBit_zero]
  have hbit : ((if neg then 2 ^ 63 else 0) + (r.log2 + 959) * 2 ^ 52 + (sig - 2 ^ 52)) % 2 ≠ 1 := by
    split <;> omega
  rw [decide_eq_false hbit, Bool.and_false]

/-! ## The rounding in other units -/

theorem rne64_of_fitsSig53 {n : Nat} (h : FitsSig53 n) : rne64 n = n := by
  have hnear := (rne64_nearest n h).1
  rw [sub_self, abs_zero, abs_nonpos_iff] at hnear
  omega

theorem rne64_le_two_pow {n k : Nat} (h : n ≤ 2 ^ k) : rne64 n ≤ 2 ^ k := by
  have hfits : FitsSig53 (2 ^ k) := ⟨1, k, by decide, (Nat.one_mul _).symm⟩
  have hnear := (rne64_nearest n hfits).1
  simp only [Int.abs_eq_natAbs] at hnear
  omega

theorem rne64_mul_two_pow (n k : Nat) : rne64 (n * 2 ^ k) = rne64 n * 2 ^ k := by
  obtain hlt | hge := Nat.lt_or_ge n (2 ^ 53)
  · rw [rne64_of_lt hlt, rne64_of_fitsSig53 ⟨n, k, hlt, rfl⟩]
  have hn : n ≠ 0 := by omega
  have hk : 0 < 2 ^ k := Nat.two_pow_pos k
  obtain ⟨j, hj⟩ := Nat.exists_eq_add_of_le' ((Nat.le_log2 hn).2 hge)
  have hjk : (n * 2 ^ k).log2 = j + k + 53 := by rw [log2_mul_two_pow hn, hj]; omega
  rw [rne64_of_log2 hj, rne64_of_log2 hjk, Nat.add_right_comm, Nat.pow_add _ _ k, Nat.pow_add _ _ k,
    Nat.mul_mod_mul_right, Nat.mul_div_mul_right _ _ hk]
  simp only [Nat.mul_lt_mul_right hk, Nat.mul_left_inj hk.ne', ← Nat.mul_assoc, ite_mul]

/-! ## The double that CVTVD answers -/

theorem dbl_bits64_rne64 (neg : Bool) {n : Nat} (hn : n ≤ 2 ^ 127) :
    dbl (bits64 neg (rne64 n)) = .finite neg (rne64 n * valueUnit) :=
  dbl_bits64 neg (fitsSig53_rne64 n) ((rne64_le_two_pow hn).trans_lt (by decide))

/-- No double is nearer to `n` units of a value, and one as near leaves bit 0 of the answer clear. -/
theorem bits64_rne64_nearest (neg : Bool) (n : Nat) {u : Nat} (hu : FitsSig53 u) :
    |((rne64 n * valueUnit : ℕ) : ℤ) - n * 2 ^ 1010| ≤ |(u : ℤ) - n * 2 ^ 1010| ∧
    (|((rne64 n * valueUnit : ℕ) : ℤ) - n * 2 ^ 1010| = |(u : ℤ) - n * 2 ^ 1010| →
      rne64 n * valueUnit ≠ u → (bits64 neg (rne64 n)).getLsbD 0 = false) := by
  have hnear := rne64_nearest (n * valueUnit) hu
  have hround : rne64 (n * valueUnit) = rne64 n * valueUnit := rne64_mul_two_pow n 1010
  have hunits : ((n * valueUnit : ℕ) : ℤ) = n * 2 ^ 1010 := by
    rw [Nat.cast_mul, valueUnit, Nat.cast_pow, Nat.cast_ofNat]
  rw [hround, hunits] at hnear
  exact ⟨hnear.1, fun htie hne => getLsbD_zero_bits64 neg (fitsSig53_rne64 n) (hnear.2 htie hne)⟩

/-! ## CVTVD -/

theorem magnitude_of_ne_rsv {a : Value} (h : a ≠ rsv) :
    ∃ p, magnitude a = .ok p ∧ p.toNat = a.toInt.natAbs := by
  have hlt := a.isLt
  rw [toInt_eq_sign, magnitude]
  split
  case isTrue hs =>
    refine ⟨-a, negate_of_ne_rsv h, ?_⟩
    rw [sign_eq_decide, decide_eq_true_iff] at hs
    rw [BitVec.toNat_neg]
    omega
  case isFalse => exact ⟨a, rfl, by omega⟩

theorem roundMagnitude_correctRne (p : Value) : roundMagnitude .correctRne p = rne64 p.toNat := by
  rw [toNat_eq_limbs p, roundMagnitude]

/-- CVTVD's computation: one rounding of the magnitude, with the operand's sign (R83). -/
theorem valueToDouble_of_ne_rsv {a : Value} (h : a ≠ rsv) :
    valueToDouble .correctRne a = .ok (bits64 (sign a) (rne64 a.toInt.natAbs)) := by
  obtain ⟨p, hp, hnat⟩ := magnitude_of_ne_rsv h
  rw [valueToDouble, hp, ← hnat, ← roundMagnitude_correctRne]
  rfl

theorem valueToDouble_rsv (mode : V2dMode) : valueToDouble mode rsv = .error .negRsv := by
  rw [valueToDouble, magnitude, if_pos (by decide), negate_rsv]
  rfl

/-- Settles O16: every double is a number of 53 bits, and the rounding of the magnitude is the nearest
of these. -/
theorem cvtvdResponse : Obligations.CvtvdResponse := by
  refine fun a b m x s => ⟨decode_cvtvd a b m x, fun h => ?_, fun h => ?_⟩
  · rw [exec_of_computed rfl s, h, valueToDouble_rsv]; rfl
  · have hn : a.toInt.natAbs ≤ 2 ^ 127 := by
      have := toInt_bounds a
      omega
    refine ⟨_, _, ?_, dbl_bits64_rne64 (sign a) hn, fun w neg u hw => ?_⟩
    · rw [exec_of_computed rfl s, Config.v2dMode, valueToDouble_of_ne_rsv h]; rfl
    · rw [Int.abs_eq_natAbs a.toInt]
      exact bits64_rne64_nearest (sign a) _ (fitsSig53_of_dbl hw)

/-- Settles O17: by evaluation. -/
theorem cvtvdCornerValues : Obligations.CvtvdCornerValues := by
  unfold Obligations.CvtvdCornerValues
  decide +kernel

end Sys2Proof.Machine
end

section
/-! PROOFS. CVTVI (spec/42_convert.md R85). Both roundings of the value are quotients of the pattern's
integer reading by `2^64`, so the range check and the distance to the value are bounds on integers. -/

namespace Sys2Proof.Machine

/-! ## The rounded integer -/

theorem floor_toInt_div (n : ℤ) : ⌊(n : ℚ) / 2 ^ 64⌋ = n / 2 ^ 64 := by
  exact_mod_cast Rat.floor_intCast_div_natCast n (2 ^ 64)

theorem abs_val (a : Value) : |val a| = (|a.toInt| : ℤ) / 2 ^ 64 := by
  rw [val, abs_div, Int.cast_abs, abs_of_pos (show (0 : ℚ) < 2 ^ 64 by positivity)]

theorem roundToInt_floor (a : Value) : roundToInt .floor a = a.toInt / 2 ^ 64 :=
  Int.fdiv_eq_ediv_of_nonneg _ (by decide)

theorem roundToInt_trunc (a : Value) :
    roundToInt .trunc a = if a.toInt < 0 then -(|a.toInt| / 2 ^ 64) else |a.toInt| / 2 ^ 64 := by
  rw [roundToInt]
  split
  case isTrue h =>
    rw [abs_of_neg h, ← Int.tdiv_eq_ediv_of_nonneg (by omega), Int.neg_tdiv, neg_neg]
  case isFalse h => rw [abs_of_nonneg (by omega), Int.tdiv_eq_ediv_of_nonneg (by omega)]

/-- Toward −∞ (R85). -/
theorem roundToInt_floor_eq_val (a : Value) : roundToInt .floor a = ⌊val a⌋ := by
  rw [roundToInt_floor, val, floor_toInt_div]

/-- Toward zero (R85). -/
theorem roundToInt_trunc_eq_val (a : Value) :
    roundToInt .trunc a = if val a < 0 then -⌊|val a|⌋ else ⌊|val a|⌋ := by
  simp only [roundToInt_trunc, val_neg_iff, abs_val, floor_toInt_div]

/-- Either rounding moves the value by less than 1. -/
theorem abs_roundToInt_sub_val_lt_one (round : V2iRound) (a : Value) :
    |(roundToInt round a : ℚ) - val a| < 1 := by
  have hnear : |roundToInt round a * 2 ^ 64 - a.toInt| < 2 ^ 64 := by
    cases round with
    | trunc =>
      rw [roundToInt_trunc]
      simp only [Int.abs_eq_natAbs]
      split <;> omega
    | floor =>
      rw [roundToInt_floor, Int.abs_eq_natAbs]
      omega
  have hsub : (roundToInt round a : ℚ) - val a =
      ((roundToInt round a * 2 ^ 64 - a.toInt : ℤ) : ℚ) / 2 ^ 64 := by
    rw [val]
    push_cast
    ring
  rw [hsub, abs_div, abs_of_pos (show (0 : ℚ) < 2 ^ 64 by positivity), div_lt_one (by positivity)]
  exact_mod_cast hnear

/-- Either rounding stays in a range of two's complement. -/
theorem roundToInt_bounds (round : V2iRound) {a : Value} {half : Int}
    (hlo : -half * 2 ^ 64 ≤ a.toInt) (hhi : a.toInt < half * 2 ^ 64) :
    -half ≤ roundToInt round a ∧ roundToInt round a ≤ half - 1 := by
  cases round with
  | trunc =>
    rw [roundToInt_trunc, Int.abs_eq_natAbs]
    split <;> omega
  | floor =>
    rw [roundToInt_floor]
    omega

/-- 64 bits hold the rounded integer of every pattern, RSV included. -/
theorem toInt_ofInt_roundToInt (round : V2iRound) (a : Value) :
    (BitVec.ofInt 64 (roundToInt round a)).toInt = roundToInt round a := by
  have hbounds := toInt_bounds a
  obtain ⟨hlo, hhi⟩ := roundToInt_bounds (a := a) (half := 2 ^ 63) round (by omega) (by omega)
  exact BitVec.toInt_ofInt_eq_self (by decide) hlo (by omega)

/-! ## CVTVI -/

/-- Settles O18: the two roundings in their closed forms; CVTVI presents the response of its
computation. -/
theorem cvtviResponse : Obligations.CvtviResponse := by
  suffices hcomputed : _ from
    ⟨hcomputed, fun a b m x s => ⟨decode_cvtvi a b m x, by
      rw [exec_of_computed rfl s, hcomputed]
      dsimp only
      split_ifs <;> rfl⟩⟩
  intro round width a
  cases round
  case trunc => rw [valueToInt, roundToInt_trunc_eq_val]; cases width <;> rfl
  case floor => rw [valueToInt, roundToInt_floor_eq_val]; cases width <;> rfl

/-- CVTVI's computation succeeds on the values whose integers the width holds. -/
theorem valueToInt_of_bounds (round : V2iRound) {width : V2iWidth} {a : Value} (ha : a ≠ rsv)
    (hlo : -2 ^ (widthBits width - 1) * 2 ^ 64 ≤ a.toInt)
    (hhi : a.toInt < 2 ^ (widthBits width - 1) * 2 ^ 64) :
    valueToInt round width a = .ok (BitVec.ofInt 64 (roundToInt round a)) := by
  have hbounds := roundToInt_bounds round hlo hhi
  simp only [valueToInt, if_neg ha]
  exact if_neg (by omega)

/-- With 64 bits only RSV fails. -/
theorem valueToInt_w64 (round : V2iRound) {a : Value} (ha : a ≠ rsv) :
    valueToInt round .w64 a = .ok (BitVec.ofInt 64 (roundToInt round a)) := by
  obtain ⟨hlo, hhi⟩ := toInt_bounds a
  exact valueToInt_of_bounds round ha hlo (Int.lt_of_le_sub_one hhi)

/-- Between `-2^31` and `2^31 - 1` either width is enough. -/
theorem valueToInt_of_val_bounds (round : V2iRound) (width : V2iWidth) {a : Value}
    (hlo : -2 ^ 31 ≤ val a) (hhi : val a ≤ 2 ^ 31 - 1) :
    valueToInt round width a = .ok (BitVec.ofInt 64 (roundToInt round a)) := by
  rw [val, le_div_iff₀ (by positivity)] at hlo
  rw [val, div_le_iff₀ (by positivity)] at hhi
  have hlo' : -2 ^ 31 * 2 ^ 64 ≤ a.toInt := by exact_mod_cast hlo
  have hhi' : a.toInt ≤ (2 ^ 31 - 1) * 2 ^ 64 := by exact_mod_cast hhi
  have ha : a ≠ rsv := by
    rw [Ne, eq_rsv_iff]
    omega
  cases width
  case w32 => exact valueToInt_of_bounds round ha hlo' (by rw [widthBits]; omega)
  case w64 => exact valueToInt_w64 round ha

/-- The floor of a value is spelt by its integer limbs. -/
theorem ofInt_roundToInt_floor (a : Value) :
    BitVec.ofInt 64 (roundToInt .floor a) = ihi a ++ ilo a := by
  have hlimbs := toInt_eq_limbs a
  have hfhi := (fhi a).isLt
  have hflo := (flo a).isLt
  apply BitVec.eq_of_toInt_eq
  rw [toInt_ofInt_roundToInt, roundToInt_floor, BitVec.toInt_append, if_neg (by decide)]
  omega

/-- Settles O19: the rounded integer of every pattern reads back from 64 bits, and the range check
passes by bounds on the pattern. -/
theorem cvtviCompletesInRange : Obligations.CvtviCompletesInRange := by
  refine ⟨fun a s hlo hhi => ⟨_, ?_, toInt_ofInt_roundToInt Config.v2iRound a, ?_⟩,
    fun round a ha => ⟨_, valueToInt_w64 round ha, toInt_ofInt_roundToInt round a⟩,
    fun a ha => by rw [valueToInt_w64 .floor ha, ofInt_roundToInt_floor]⟩
  · rw [exec_of_computed rfl s, valueToInt_of_val_bounds _ _ hlo hhi]
    rfl
  · rw [toInt_ofInt_roundToInt]
    exact abs_roundToInt_sub_val_lt_one Config.v2iRound a

end Sys2Proof.Machine
end

section
/-! PROOFS. CEIL (spec/43_ceil.md R86, R87). The two lower limbs are the remainder of the pattern's
integer reading by `2^64`, the two upper limbs its quotient, and the increment adds one to the
quotient. -/

namespace Sys2Proof.Machine

/-! ## The fraction and the integer part -/

/-- The fraction of a pattern is spelt by its lower limbs. -/
theorem toInt_emod_eq_limbs (a : Value) :
    a.toInt % 2 ^ 64 = (fhi a).toNat * 2 ^ 32 + (flo a).toNat := by
  have hlimbs := toInt_eq_limbs a
  have hfhi := (fhi a).isLt
  have hflo := (flo a).isLt
  omega

/-- The integer part of a pattern is spelt by its upper limbs. -/
theorem toInt_ediv_eq_limbs (a : Value) :
    a.toInt / 2 ^ 64 = (ihi a).toInt * 2 ^ 32 + (ilo a).toNat := by
  have hlimbs := toInt_eq_limbs a
  have hfhi := (fhi a).isLt
  have hflo := (flo a).isLt
  omega

theorem fraction_ne_zero_iff (a : Value) :
    (fhi a ≠ 0 ∨ flo a ≠ 0) ↔ a.toInt % 2 ^ 64 ≠ 0 := by
  rw [toInt_emod_eq_limbs, ← not_and_or, not_iff_not, ← BitVec.toNat_inj, ← BitVec.toNat_inj]
  simp only [BitVec.ofNat_eq_ofNat, BitVec.toNat_ofNat]
  omega

/-- A pattern without a fraction, from the integer that its upper limbs spell. -/
theorem limbs_eq_ofInt {hi lo : Limb} {n : ℤ} (h : hi.toInt * 2 ^ 32 + lo.toNat = n) :
    limbs hi lo 0 0 = BitVec.ofInt 128 (n * 2 ^ 64) := by
  rw [← BitVec.ofInt_toInt (x := limbs hi lo 0 0), toInt_eq_limbs, ihi_limbs, ilo_limbs, fhi_limbs,
    flo_limbs, ← h]
  congr 1
  simp only [BitVec.ofNat_eq_ofNat, BitVec.toNat_ofNat]
  omega

/-! ## The increment -/

theorem add_one_eq_zero_iff (lo : Limb) : lo + 1 = 0 ↔ lo.toNat = 2 ^ 32 - 1 := by
  bv_omega

theorem eq_maxLimb_iff (hi : Limb) : hi = 0x7fffffff ↔ hi.toInt = 2 ^ 31 - 1 :=
  BitVec.toInt_inj.symm

/-- Only the largest limb wraps. -/
theorem toInt_add_one_of_ne {hi : Limb} (h : hi ≠ 0x7fffffff) :
    (hi + 1).toInt = hi.toInt + 1 := by
  rw [Ne, eq_maxLimb_iff] at h
  have hlo := BitVec.le_toInt hi
  have hhi := BitVec.toInt_lt (x := hi)
  rw [BitVec.toInt_add, show (1 : Limb).toInt = 1 by decide]
  exact Int.bmod_eq_of_le (by omega) (by omega)

theorem toNat_add_one_of_ne {lo : Limb} (h : lo + 1 ≠ 0) : (lo + 1).toNat = lo.toNat + 1 := by
  bv_omega

/-! ## The closed form -/

/-- CEIL's computation in its closed form (R87): the quotient reaches `2^63` exactly when both
increments meet their limb's largest value. -/
theorem ceiling_eq (a : Value) : ceiling a =
    if a.toInt % 2 ^ 64 = 0 then .ok a
    else
      let n := a.toInt / 2 ^ 64 + 1
      if n = 2 ^ 63 then .error .ceilOvf else .ok (BitVec.ofInt 128 (n * 2 ^ 64)) := by
  have hihi := BitVec.toInt_lt (x := ihi a)
  simp only [ceiling, fraction_ne_zero_iff, toInt_ediv_eq_limbs, limbs_of_limbs, ite_not]
  refine if_congr Iff.rfl rfl ?_
  by_cases hlo : ilo a + 1 = 0
  case neg =>
    have hsucc := toNat_add_one_of_ne hlo
    have hlt := (ilo a + 1).isLt
    rw [if_neg hlo, if_neg (by omega)]
    exact congrArg Except.ok (limbs_eq_ofInt (by omega))
  case pos =>
    have hmax := (add_one_eq_zero_iff _).mp hlo
    have hwrap : (ilo a + 1).toNat = 0 := by rw [hlo]; rfl
    rw [if_pos hlo]
    by_cases hhi : ihi a = 0x7fffffff
    case pos =>
      have hmaxhi := (eq_maxLimb_iff _).mp hhi
      rw [if_pos hhi, if_pos (by omega)]
    case neg =>
      have hnothi := (eq_maxLimb_iff _).not.mp hhi
      have hsucc := toInt_add_one_of_ne hhi
      rw [if_neg hhi, if_neg (by omega)]
      exact congrArg Except.ok (limbs_eq_ofInt (by omega))

/-- A successful result is the operand's integer reading, rounded up to a multiple of `2^64`. -/
theorem toInt_of_ceiling {a r : Value} (h : ceiling a = .ok r) :
    r.toInt = -(-a.toInt / 2 ^ 64) * 2 ^ 64 := by
  have hbounds := toInt_bounds a
  rw [ceiling_eq] at h
  dsimp only at h
  split_ifs at h with hfrac hn <;> cases h
  · omega
  · rw [BitVec.toInt_ofInt_eq_self (by decide) (by omega) (by omega)]
    omega

theorem ceiling_of_integer {a : Value} (h : a.toInt % 2 ^ 64 = 0) : ceiling a = .ok a := by
  rw [ceiling_eq, if_pos h]

/-! ## The ceiling of the value -/

theorem ceil_toInt_div (n : ℤ) : ⌈(n : ℚ) / 2 ^ 64⌉ = -(-n / 2 ^ 64) := by
  exact_mod_cast Rat.ceil_intCast_div_natCast n (2 ^ 64)

theorem val_of_ceiling {a r : Value} (h : ceiling a = .ok r) : val r = ⌈val a⌉ := by
  rw [val, val, ceil_toInt_div, toInt_of_ceiling h, Int.cast_mul, Int.cast_pow, Int.cast_ofNat,
    mul_div_cancel_right₀ _ (by positivity)]

/-- CEIL is idempotent (R87). -/
theorem ceiling_of_ceiling {a r : Value} (h : ceiling a = .ok r) : ceiling r = .ok r :=
  ceiling_of_integer (by rw [toInt_of_ceiling h, Int.mul_emod_left])

/-! ## CEIL -/

/-- Settles O20: CEIL presents the response of its computation, whose closed form is `ceiling_eq`. -/
theorem ceilResponse : Obligations.CeilResponse := by
  refine fun a b m x s => ⟨decode_ceil a b m x, ?_⟩
  rw [exec_of_computed rfl s, ceiling_eq]
  dsimp only
  split_ifs <;> rfl

/-- Settles O21: the closed form, and its laws by the integer reading of a successful result. -/
theorem ceilLaws : Obligations.CeilLaws :=
  ⟨ceiling_eq, fun _ _ h => ⟨val_of_ceiling h, ceiling_of_ceiling h,
    fun hint => Except.ok.inj (h.symm.trans (ceiling_of_integer hint)),
    fun hrep => representable_ceiling hrep h⟩⟩

end Sys2Proof.Machine
end

section
/-! PROOFS. The scaled-accumulate engine (spec/44_addmult.md R88 to R95). The limb steps of a pass add
its product exactly, as numbers with a leftover carry (`limbSteps_sum`), so that the sign check
accepts exactly the sums in range (`checkSign_eq`). The two passes together add
`m'·uint(y') = m·sint_128(y)`. -/

namespace Sys2Proof.Machine

/-! ## The limb step -/

theorem signOk_iff_cases (before after : Value) (c : Int) : signOk before after c = true ↔
    (c = 0 ∧ sign before = sign after) ∨ (c = 1 ∧ sign before = true ∧ sign after = false) ∨
    (c = -1 ∧ sign before = false ∧ sign after = true) := by
  rw [signOk, beq_iff_eq, signInt, signInt]
  cases sign before <;> cases sign after <;> simp

/-- Settles O24: the step's equation and its floor carry, and the sign test by the two sign bits. -/
theorem limbStepAndSignTest : Obligations.LimbStepAndSignTest :=
  ⟨fun xl p c => ⟨rfl, limbStep_spec xl p c, limbStep_carry xl p c⟩, signOk_iff_cases⟩

/-- The product of a multiplier part and a limb bounded by `n`, by the part's two ends. -/
theorem part_mul_bounds {part u n : ℤ} (hlo : -2 ^ 31 ≤ part) (hhi : part ≤ 2 ^ 31 - 1) (hu : 0 ≤ u)
    (hn : u ≤ n) : -2 ^ 31 * n ≤ part * u ∧ part * u ≤ (2 ^ 31 - 1) * n := by
  have hleft : -2 ^ 31 * u ≤ part * u := mul_le_mul_of_nonneg_right hlo hu
  have hright : part * u ≤ (2 ^ 31 - 1) * u := mul_le_mul_of_nonneg_right hhi hu
  constructor <;> omega

/-- Settles O27: every bound follows from the product's, the carry's by its floor form. -/
theorem accumulatorFitsSixtyFourBits : Obligations.AccumulatorFitsSixtyFourBits := by
  intro xl yl part c hlo hhi hclo hchi
  have hx := xl.isLt
  have hy := yl.isLt
  have hprod := part_mul_bounds hlo hhi (Int.natCast_nonneg yl.toNat)
    (show (yl.toNat : ℤ) ≤ 2 ^ 32 - 1 by omega)
  rw [stepSum, limbStep_carry]
  refine ⟨by omega, by omega, by omega, fun hmag => ?_⟩
  have hleft := part_mul_bounds hlo hhi (Int.natCast_nonneg yl.toNat)
    (show (yl.toNat : ℤ) ≤ 2 ^ 31 - 1 by omega)
  exact abs_le.mpr ⟨by omega, by omega⟩

/-! ## The passes -/

/-- The sign check of a pass, when `x'` and the leftover carry `c` make up the exact sum of `x` and `v`:
it fails exactly when the signed sum is out of range, and otherwise `x'` is its pattern. -/
theorem checkSign_eq {x x' : Value} {v c : ℤ} (cause : Cause)
    (h : (x.toNat : ℤ) + v = x'.toNat + c * 2 ^ 128) :
    (if signOk x x' c then .ok x' else .error cause : Except Cause Value) =
      if x.toInt + v < -2 ^ 127 ∨ 2 ^ 127 - 1 < x.toInt + v then .error cause
      else .ok (BitVec.ofInt 128 (x.toInt + v)) := by
  have hrange := signOk_iff x x' v c h
  by_cases hok : signOk x x' c = true
  case pos =>
    have := hrange.mp hok
    rw [if_pos hok, if_neg (by omega), ← toInt_of_signOk x x' v c h hok]
  case neg =>
    have := hrange.not.mp hok
    rw [if_neg hok, if_pos (by omega)]

/-- Three steps in a row add their products, each at its limb's weight. -/
theorem limbSteps_sum (x0 x1 x2 : Limb) (p0 p1 p2 c : ℤ) :
    let r0 := limbStep x0 p0 c
    let r1 := limbStep x1 p1 r0.2
    let r2 := limbStep x2 p2 r1.2
    (x0.toNat + x1.toNat * 2 ^ 32 + x2.toNat * 2 ^ 64 : ℤ) + (p0 + p1 * 2 ^ 32 + p2 * 2 ^ 64) + c =
      r0.1.toNat + r1.1.toNat * 2 ^ 32 + r2.1.toNat * 2 ^ 64 + r2.2 * 2 ^ 96 := by
  intro r0 r1 r2
  have h0 := limbStep_spec x0 p0 c
  have h1 := limbStep_spec x1 p1 r0.2
  have h2 := limbStep_spec x2 p2 r1.2
  linear_combination -h0 - 2 ^ 32 * h1 - 2 ^ 64 * h2

/-- The four steps of the low pass add `mlo·uint(y)`. -/
theorem lowPass_eq (x y : Value) (mlo : ℤ) : lowPass x y mlo =
    let r := x.toInt + mlo * y.toNat
    if r < -2 ^ 127 ∨ 2 ^ 127 - 1 < r then .error .amLow else .ok (BitVec.ofInt 128 r) := by
  refine checkSign_eq .amLow ?_
  have hflo := limbStep_spec (flo x) (mlo * (flo y).toNat) 0
  have hupper := limbSteps_sum (fhi x) (ilo x) (ihi x) (mlo * (fhi y).toNat) (mlo * (ilo y).toNat)
    (mlo * (ihi y).toNat) (limbStep (flo x) (mlo * (flo y).toNat) 0).2
  rw [toNat_eq_limbs x, toNat_eq_limbs y, toNat_limbs]
  push_cast
  linear_combination -hflo + 2 ^ 32 * hupper

/-- Settles O25: the low pass's closed form. -/
theorem lowPassIsExact : Obligations.LowPassIsExact := lowPass_eq

/-- The three steps of the high pass and its leftover product add `mhi·uint(y)` at the weight `2^32`
(decision D13). -/
theorem highPass_eq (x y : Value) (mhi : ℤ) : highPass x y mhi =
    let r := x.toInt + mhi * y.toNat * 2 ^ 32
    if r < -2 ^ 127 ∨ 2 ^ 127 - 1 < r then .error .amHigh else .ok (BitVec.ofInt 128 r) := by
  refine checkSign_eq .amHigh ?_
  have hupper := limbSteps_sum (fhi x) (ilo x) (ihi x) (mhi * (flo y).toNat) (mhi * (fhi y).toNat)
    (mhi * (ilo y).toNat) 0
  rw [toNat_eq_limbs x, toNat_eq_limbs y, toNat_limbs]
  push_cast
  linear_combination 2 ^ 32 * hupper

theorem highPass_zero (x y : Value) : highPass x y 0 = .ok x := by
  have hbounds := toInt_bounds x
  rw [highPass_eq]
  simp only [zero_mul, add_zero, BitVec.ofInt_toInt]
  exact if_neg (by omega)

theorem flo_of_highPass {x y r : Value} {mhi : ℤ} (h : highPass x y mhi = .ok r) : flo r = flo x := by
  simp only [highPass] at h
  split at h <;> cases h
  exact flo_limbs ..

/-- Settles O26: the closed form, the limb that the pass does not write, and the closed form at 0. -/
theorem highPassIsExact : Obligations.HighPassIsExact := fun x y mhi =>
  ⟨highPass_eq x y mhi, fun _ => flo_of_highPass, highPass_zero x y⟩

/-! ## Canon and Split -/

/-- Canon is the magnitude with its failure on RSV, the multiplier's own check and the sign carried over
to the multiplier (R89). -/
theorem canon_eq (y : Value) (m : ℤ) : canon y m = (magnitude y).bind fun y' =>
    if m = -2 ^ 63 then .error .amMmin else .ok (y', if sign y then -m else m) := by
  rw [canon, magnitude]
  split <;> rfl

theorem canon_rsv (m : ℤ) : canon rsv m = .error .negRsv := by
  rw [canon_eq, magnitude, if_pos (by decide), negate_rsv]
  rfl

theorem canon_of_ne_rsv {y : Value} (h : y ≠ rsv) : ∃ y', (y'.toNat : ℤ) = |y.toInt| ∧
    ∀ m, canon y m =
      if m = -2 ^ 63 then .error .amMmin else .ok (y', if y.toInt < 0 then -m else m) := by
  obtain ⟨y', hy', hnat⟩ := magnitude_of_ne_rsv h
  refine ⟨y', by rw [hnat, Int.abs_eq_natAbs], fun m => ?_⟩
  simp only [canon_eq, hy', sign_iff_toInt_neg]
  rfl

/-- The sign flip keeps the product: `m'·uint(y') = m·sint_128(y)` (R94). -/
theorem flip_mul_abs (y m : ℤ) : (if y < 0 then -m else m) * |y| = m * y := by
  split
  case isTrue h => rw [abs_of_neg h, neg_mul_neg]
  case isFalse h => rw [abs_of_nonneg (not_lt.mp h)]

theorem flip_bounds {m : ℤ} (hlo : -2 ^ 63 < m) (hhi : m ≤ 2 ^ 63 - 1) (neg : Prop) [Decidable neg] :
    -2 ^ 63 < (if neg then -m else m) ∧ (if neg then -m else m) < 2 ^ 63 := by
  split <;> omega

/-- The signed reading of the low 32 bits, as a remainder. -/
theorem toInt_ofInt_32 (m : ℤ) : (BitVec.ofInt 32 m).toInt = (m + 2 ^ 31) % 2 ^ 32 - 2 ^ 31 := by
  rw [BitVec.toInt_ofInt, Int.bmod_def]
  norm_num
  split <;> omega

/-- Split divides with the remainder of least magnitude; for a multiplier after Canon only a part above
the range can fail (R90). -/
theorem splitMult_eq {m : ℤ} (hlo : -2 ^ 63 < m) (hhi : m < 2 ^ 63) : splitMult m =
    if 2 ^ 63 - 2 ^ 31 ≤ m then .error .amSplit
    else .ok ((m + 2 ^ 31) / 2 ^ 32, (m + 2 ^ 31) % 2 ^ 32 - 2 ^ 31) := by
  simp only [splitMult, toInt_ofInt_32]
  have hquot : (m - ((m + 2 ^ 31) % 2 ^ 32 - 2 ^ 31)) / 2 ^ 32 = (m + 2 ^ 31) / 2 ^ 32 := by omega
  rw [hquot]
  exact if_congr (by omega) rfl rfl

/-- The magnitude of an operand other than RSV leaves the sign bit clear. -/
theorem toNat_lt_of_eq_abs {y y' : Value} (h : y ≠ rsv) (hnat : (y'.toNat : ℤ) = |y.toInt|) :
    y'.toNat < 2 ^ 127 := by
  have hbounds := toInt_bounds y
  have hne := (eq_rsv_iff y).not.mp h
  rw [Int.abs_eq_natAbs] at hnat
  omega

/-- Settles O23: Canon by the magnitude, which is below `2^127`, and Split by its closed form. -/
theorem canonAndSplit : Obligations.CanonAndSplit := by
  constructor
  case left =>
    refine fun y m hlo hhi => ⟨fun h => by rw [h, canon_rsv], fun h hm => ?_, fun h hm => ?_⟩
    · obtain ⟨y', -, hcanon⟩ := canon_of_ne_rsv h
      rw [hcanon, if_pos hm]
    · obtain ⟨y', hnat, hcanon⟩ := canon_of_ne_rsv h
      have hlt := toNat_lt_of_eq_abs h hnat
      obtain ⟨hmlo, hmhi⟩ := flip_bounds (lt_of_le_of_ne hlo (Ne.symm hm)) hhi (y.toInt < 0)
      rw [hcanon, if_neg hm]
      refine ⟨y', _, rfl, ?_, hnat, ?_, ?_, hmlo, hmhi, by rw [hnat, flip_mul_abs]⟩
      · rw [sign_eq_decide, decide_eq_false (by omega)]
      · rw [toNat_ihi]; omega
      · simp only [sign_iff_toInt_neg]
  case right =>
    refine fun m hlo hhi => ?_
    rw [splitMult_eq hlo hhi]
    refine ⟨fun hm => if_pos hm, fun hm => ⟨_, _, if_neg (by omega), ?_⟩⟩
    omega

/-! ## ADDMULT -/

theorem ofInt_eq_rsv_iff {r : ℤ} (hlo : -2 ^ 127 ≤ r) (hhi : r ≤ 2 ^ 127 - 1) :
    BitVec.ofInt 128 r = rsv ↔ r = -2 ^ 127 := by
  rw [eq_rsv_iff, BitVec.toInt_ofInt_eq_self (by decide) hlo (by omega)]

/-- The two passes and the final check add `(mhi·2^32 + mlo)·uint(y)`, unless a sum leaves its range
(R94). -/
theorem passes_eq (x y : Value) (mhi mlo : ℤ) :
    ((lowPass x y mlo).bind fun x1 => (highPass x1 y mhi).bind checkNotRsv) =
      let r1 := x.toInt + mlo * y.toNat
      let r2 := x.toInt + (mhi * 2 ^ 32 + mlo) * y.toNat
      if r1 < -2 ^ 127 ∨ 2 ^ 127 - 1 < r1 then .error .amLow
      else if r2 < -2 ^ 127 ∨ 2 ^ 127 - 1 < r2 then .error .amHigh
      else if r2 = -2 ^ 127 then .error .amRsv
      else .ok (BitVec.ofInt 128 r2) := by
  have hsum : x.toInt + mlo * y.toNat + mhi * y.toNat * 2 ^ 32 =
      x.toInt + (mhi * 2 ^ 32 + mlo) * y.toNat := by ring
  rw [lowPass_eq, ← hsum]
  dsimp only
  generalize x.toInt + mlo * y.toNat = r1
  split
  case isTrue => rfl
  case isFalse hr1 =>
    rw [Except.bind, highPass_eq, BitVec.toInt_ofInt_eq_self (by decide) (by omega) (by omega)]
    dsimp only
    generalize r1 + mhi * y.toNat * 2 ^ 32 = r2
    split
    case isTrue => rfl
    case isFalse hr2 => exact if_congr (ofInt_eq_rsv_iff (by omega) (by omega)) rfl rfl

/-- The engine in its closed form, with the first check that fails (R94). -/
theorem scaledAccumulate_eq (x y : Value) {m : ℤ} (hlo : -2 ^ 63 ≤ m) (hhi : m ≤ 2 ^ 63 - 1) :
    scaledAccumulate x y m =
      let m' := if y.toInt < 0 then -m else m
      let r1 := x.toInt + ((m' + 2 ^ 31) % 2 ^ 32 - 2 ^ 31) * |y.toInt|
      let r2 := x.toInt + m * y.toInt
      if y = rsv then .error .negRsv
      else if m = -2 ^ 63 then .error .amMmin
      else if 2 ^ 63 - 2 ^ 31 ≤ m' then .error .amSplit
      else if r1 < -2 ^ 127 ∨ 2 ^ 127 - 1 < r1 then .error .amLow
      else if r2 < -2 ^ 127 ∨ 2 ^ 127 - 1 < r2 then .error .amHigh
      else if r2 = -2 ^ 127 then .error .amRsv
      else .ok (BitVec.ofInt 128 r2) := by
  rw [scaledAccumulate]
  by_cases hy : y = rsv
  case pos => simp only [hy, canon_rsv, if_true]; rfl
  obtain ⟨y', hnat, hcanon⟩ := canon_of_ne_rsv hy
  rw [if_neg hy, hcanon]
  by_cases hm : m = -2 ^ 63
  case pos => rw [if_pos hm, if_pos hm]; rfl
  obtain ⟨hmlo, hmhi⟩ := flip_bounds (lt_of_le_of_ne hlo (Ne.symm hm)) hhi (y.toInt < 0)
  have hflip := flip_mul_abs y.toInt m
  generalize (if y.toInt < 0 then -m else m) = m' at hmlo hmhi hflip ⊢
  rw [if_neg hm, if_neg hm, Except.bind, splitMult_eq hmlo hmhi]
  by_cases hsplit : 2 ^ 63 - 2 ^ 31 ≤ m'
  case pos => rw [if_pos hsplit, if_pos hsplit]; rfl
  have hparts : (m' + 2 ^ 31) / 2 ^ 32 * 2 ^ 32 + ((m' + 2 ^ 31) % 2 ^ 32 - 2 ^ 31) = m' := by omega
  rw [if_neg hsplit, if_neg hsplit, Except.bind, passes_eq, hnat, hparts, hflip]

/-- Every successful result is exact (R94). -/
theorem val_of_scaledAccumulate {x y r : Value} {m : ℤ} (hlo : -2 ^ 63 ≤ m) (hhi : m ≤ 2 ^ 63 - 1)
    (h : scaledAccumulate x y m = .ok r) : val r = val x + m * val y := by
  have hr : r.toInt = x.toInt + m * y.toInt := by
    rw [scaledAccumulate_eq x y hlo hhi] at h
    generalize (if y.toInt < 0 then -m else m) = m' at h
    dsimp only at h
    split_ifs at h
    cases h
    exact BitVec.toInt_ofInt_eq_self (by decide) (by omega) (by omega)
  rw [val, val, val, hr]
  push_cast
  ring

theorem Response.ofR_of_st_eq_zero {e : Except Cause Value} (h : (Response.ofR e).st = 0b00) :
    e = .ok (Response.ofR e).r := by
  cases e with
  | error c => exact absurd h (Response.error_st_ne_zero c)
  | ok r => rfl

/-- Settles O22: ADDMULT presents the response of the engine, whose closed form is
`scaledAccumulate_eq`. -/
theorem addmultResponse : Obligations.AddmultResponse := by
  intro a b m x s
  have hlo : -2 ^ 63 ≤ m.toInt := BitVec.le_toInt m
  have hhi : m.toInt ≤ 2 ^ 63 - 1 := Int.le_sub_one_of_lt (BitVec.toInt_lt (x := m))
  refine ⟨decode_addmult a b m x, ?_, fun t ht hst => ?_⟩
  · rw [exec_of_computed rfl s, scaledAccumulate_eq a b hlo hhi]
    dsimp only
    split_ifs <;> rfl
  · rw [exec_of_computed rfl s] at ht
    cases ht
    exact val_of_scaledAccumulate hlo hhi (Response.ofR_of_st_eq_zero hst)

end Sys2Proof.Machine
end

section
/-! PROOFS. ADD and SUB (spec/45_addsub.md R96 to R98). Both are the engine with a multiplier of
magnitude 1, so that the sum after the low pass is already the whole sum
(`scaledAccumulate_eq_exactResult`). The laws follow from what a success means for the integer
readings (`exactResult_eq_ok_iff`). -/

namespace Sys2Proof.Machine

/-! ## The adder's result -/

/-- The checks that are left of ADDMULT's when the multiplier is 1 or -1: the operand `y`, then the
range of the exact result `r` (R96, R97). -/
def exactResult (y : Value) (r : ℤ) : Except Cause Value :=
  if y = rsv then .error .negRsv
  else if r < -2 ^ 127 ∨ 2 ^ 127 - 1 < r then .error .amLow
  else if r = -2 ^ 127 then .error .amRsv
  else .ok (BitVec.ofInt 128 r)

theorem ofR_exactResult (y : Value) (r : ℤ) : Response.ofR (exactResult y r) =
    if y = rsv then ⟨0b01, 0x1, 0, 0, 0⟩
    else if r < -2 ^ 127 ∨ 2 ^ 127 - 1 < r then ⟨0b01, 0x8, 0, 0, 0⟩
    else if r = -2 ^ 127 then ⟨0b01, 0xA, 0, 0, 0⟩
    else ⟨0b00, 0x0, BitVec.ofInt 128 r, 0, 0⟩ := by
  rw [exactResult]
  split_ifs <;> rfl

/-- Which operand other than RSV was checked leaves no trace. -/
theorem exactResult_of_ne_rsv {y y' : Value} (hy : y ≠ rsv) (hy' : y' ≠ rsv) (r : ℤ) :
    exactResult y r = exactResult y' r := by
  rw [exactResult, exactResult, if_neg hy, if_neg hy']

/-- A success is a representable pattern that reads as the exact result. -/
theorem exactResult_eq_ok_iff {y z : Value} {r : ℤ} :
    exactResult y r = .ok z ↔ y ≠ rsv ∧ z ≠ rsv ∧ z.toInt = r := by
  rw [exactResult, Ne, Ne, eq_rsv_iff z]
  constructor
  case mp =>
    intro h
    split_ifs at h with hy hrange hmin
    cases h
    have hr : (BitVec.ofInt 128 r).toInt = r :=
      BitVec.toInt_ofInt_eq_self (by decide) (by omega) (by omega)
    exact ⟨hy, by rwa [hr], hr⟩
  case mpr =>
    rintro ⟨hy, hz, rfl⟩
    have hbounds := toInt_bounds z
    rw [if_neg hy, if_neg (by omega), if_neg hz, BitVec.ofInt_toInt]

/-! ## The engine with a multiplier of magnitude 1 -/

/-- Canon and Split leave the multiplier's sign flip as the low part, and the high part is 0. -/
theorem scaledAccumulate_eq_exactResult (x y : Value) {m : ℤ} (hm : m = 1 ∨ m = -1) :
    scaledAccumulate x y m = exactResult y (x.toInt + m * y.toInt) := by
  have hflip := flip_mul_abs y.toInt m
  have hunit : (if y.toInt < 0 then -m else m) = 1 ∨ (if y.toInt < 0 then -m else m) = -1 := by
    split <;> omega
  rw [scaledAccumulate_eq x y (by omega) (by omega), exactResult]
  generalize (if y.toInt < 0 then -m else m) = m' at hflip hunit ⊢
  have hlow : (m' + 2 ^ 31) % 2 ^ 32 - 2 ^ 31 = m' := by omega
  dsimp only
  rw [hlow, hflip, if_neg (show m ≠ -2 ^ 63 by omega),
    if_neg (show ¬2 ^ 63 - 2 ^ 31 ≤ m' by omega)]
  split_ifs <;> rfl

/-- ADD's computation in its closed form (R96). -/
theorem addValues_eq (x y : Value) : addValues x y = exactResult y (x.toInt + y.toInt) := by
  rw [addValues, scaledAccumulate_eq_exactResult x y (.inl rfl), one_mul]

/-- SUB's computation in its closed form (R97): the negated copy of `y` is not RSV. -/
theorem subValues_eq (x y : Value) : subValues x y = exactResult y (x.toInt - y.toInt) := by
  rw [subValues, negate_eq]
  by_cases hy : y = rsv
  case pos => rw [if_pos hy, exactResult, if_pos hy]; rfl
  case neg =>
    have hneg : -y ≠ rsv := (representable_iff_ne_rsv _).mp (representable_neg_of_ne_rsv hy)
    rw [if_neg hy, Except.bind, addValues_eq, toInt_neg_of_ne_rsv hy, ← sub_eq_add_neg,
      exactResult_of_ne_rsv hneg hy]

/-- ADDMULT by -1 is SUB (R98 (b)). -/
theorem scaledAccumulate_neg_one (x y : Value) : scaledAccumulate x y (-1) = subValues x y := by
  rw [scaledAccumulate_eq_exactResult x y (.inr rfl), subValues_eq, neg_one_mul, sub_eq_add_neg]

/-! ## ADD and SUB -/

/-- Settles O28: ADD presents the response of its closed form (`addValues_eq`). -/
theorem addResponse : Obligations.AddResponse := fun a b m x s =>
  ⟨decode_add a b m x, by rw [exec_of_computed rfl s, addValues_eq, ofR_exactResult]; rfl⟩

/-- Settles O29: SUB presents the response of its closed form (`subValues_eq`). -/
theorem subResponse : Obligations.SubResponse := fun a b m x s =>
  ⟨decode_sub a b m x, by rw [exec_of_computed rfl s, subValues_eq, ofR_exactResult]; rfl⟩

/-! ## The adder laws -/

theorem addValues_eq_ok_iff {x y r : Value} :
    addValues x y = .ok r ↔ y ≠ rsv ∧ r ≠ rsv ∧ r.toInt = x.toInt + y.toInt := by
  rw [addValues_eq, exactResult_eq_ok_iff]

theorem subValues_eq_ok_iff {x y r : Value} :
    subValues x y = .ok r ↔ y ≠ rsv ∧ r ≠ rsv ∧ r.toInt = x.toInt - y.toInt := by
  rw [subValues_eq, exactResult_eq_ok_iff]

theorem addValues_zero {x : Value} (hx : x ≠ rsv) : addValues x valueZero = .ok x :=
  addValues_eq_ok_iff.mpr ⟨by decide, hx, (add_zero x.toInt).symm⟩

theorem addValues_comm {a b : Value} (ha : a ≠ rsv) (hb : b ≠ rsv) :
    addValues a b = addValues b a := by
  rw [addValues_eq, addValues_eq, add_comm, exactResult_of_ne_rsv hb ha]

theorem addValues_assoc {a b c ab abc bc abc' : Value} (hab : addValues a b = .ok ab)
    (habc : addValues ab c = .ok abc) (hbc : addValues b c = .ok bc)
    (habc' : addValues a bc = .ok abc') : abc = abc' := by
  obtain ⟨-, -, hab⟩ := addValues_eq_ok_iff.mp hab
  obtain ⟨-, -, habc⟩ := addValues_eq_ok_iff.mp habc
  obtain ⟨-, -, hbc⟩ := addValues_eq_ok_iff.mp hbc
  obtain ⟨-, -, habc'⟩ := addValues_eq_ok_iff.mp habc'
  exact BitVec.eq_of_toInt_eq (by rw [habc, hab, habc', hbc, add_assoc])

theorem addValues_of_subValues {x y d : Value} (hx : x ≠ rsv) (h : subValues x y = .ok d) :
    addValues d y = .ok x := by
  obtain ⟨hy, -, hd⟩ := subValues_eq_ok_iff.mp h
  exact addValues_eq_ok_iff.mpr ⟨hy, hx, by rw [hd, sub_add_cancel]⟩

theorem val_of_addValues {x y r : Value} (h : addValues x y = .ok r) : val r = val x + val y := by
  obtain ⟨-, -, hr⟩ := addValues_eq_ok_iff.mp h
  rw [val, val, val, hr, Int.cast_add, add_div]

theorem val_of_subValues {x y r : Value} (h : subValues x y = .ok r) : val r = val x - val y := by
  obtain ⟨-, -, hr⟩ := subValues_eq_ok_iff.mp h
  rw [val, val, val, hr, Int.cast_sub, sub_div]

/-- Settles O30: (a) is ADD's definition, and the other laws are those of the integer readings. -/
theorem adderLaws : Obligations.AdderLaws := by
  refine ⟨fun _ _ _ => rfl, fun x y s => ?_, fun x hx => ?_, fun a b s ha hb => ?_,
    fun _ _ _ _ _ _ _ => addValues_assoc, fun x y d hx _ h => ?_,
    fun _ _ _ => val_of_addValues, fun _ _ _ => val_of_subValues⟩
  · rw [exec_of_computed rfl s, exec_of_computed rfl s, ← scaledAccumulate_neg_one]
    rfl
  · exact addValues_zero ((representable_iff_ne_rsv x).mp hx)
  · rw [representable_iff_ne_rsv] at ha hb
    rw [exec_of_computed rfl s, exec_of_computed rfl s, addValues_comm ha hb]
  · exact addValues_of_subValues ((representable_iff_ne_rsv x).mp hx) h

end Sys2Proof.Machine
end

section
/-! PROOFS. ENC and DEC edge by edge, and the run of each with prompt answers: three edges for each
of the four fields (spec/46_serdes.md R99 to R102; spec/70_reset_and_hazards.md R124). -/

namespace Sys2Proof.Machine

/-! ## One edge of a stream command, by the pins -/

theorem Pins.answer_of_ok {p : Pins} (h : p.saOk = true) : p.answer = some p.saRdata := if_pos h

theorem Pins.answer_of_fail {p : Pins} (h : p.saOk = false) : p.answer = none := by
  simp [Pins.answer, h]

section
variable {s : State} {i : Instr}

/-- ENC and DEC alike: while no answer comes, only the call moves on. -/
theorem exec_of_pending (hi : i.usesStream = true) (ha : ¬s.answeredNow) :
    exec i s = .next { s with call := s.nextCall } := by
  cases i with
  | enc a => exact execEnc_of_pending ha a
  | dec => exact execDec_of_pending ha
  | _ => cases hi

theorem State.nextCall_of_none (hc : s.call = .none) : s.nextCall = .requested := by
  simp [nextCall, hc]

theorem State.nextCall_of_requested (hc : s.call = .requested) :
    s.nextCall = if s.pins.sqReady then .awaiting else .requested := by
  simp [nextCall, hc]

theorem State.nextCall_of_awaiting (hc : s.call = .awaiting) : s.nextCall = .awaiting := by
  simp [nextCall, hc]

theorem exec_of_call_none (hi : i.usesStream = true) (hc : s.call = .none) :
    exec i s = .next { s with call := .requested } := by
  rw [exec_of_pending hi (by simp [State.answeredNow, hc]), State.nextCall_of_none hc]

theorem exec_of_requested (hi : i.usesStream = true) (hc : s.call = .requested) :
    exec i s = .next (if s.pins.sqReady then { s with call := .awaiting } else s) := by
  rw [exec_of_pending hi (by simp [State.answeredNow, hc]), State.nextCall_of_requested hc]
  split
  · rfl
  · rw [← hc]

theorem exec_of_unanswered (hi : i.usesStream = true) (hc : s.call = .awaiting)
    (hv : s.pins.saValid = false) : exec i s = .next s := by
  rw [exec_of_pending hi (by simp [State.answeredNow, hv]), State.nextCall_of_awaiting hc, ← hc]

/-- ENC whose write has been answered `ok`, before its last field. -/
theorem execEnc_moves (ha : s.answeredNow) (hok : s.pins.saOk = true) (hk : s.k < 3) (a : Value) :
    execEnc a s = .next (s.moveField s.buf (.write (fieldOf a s.k) true)) := by
  have hv := Pins.answer_of_ok hok
  rw [execEnc_of_ok ha hv hk, State.endCall_countField, hv]
  rfl

/-- ENC whose last write has been answered `ok`. -/
theorem execEnc_completes (ha : s.answeredNow) (hok : s.pins.saOk = true) (hk : s.k = 3)
    (a : Value) : execEnc a s =
      .next ((s.moveField s.buf (.write (flo a) true)).present .okNothing) := by
  have hv := Pins.answer_of_ok hok
  rw [execEnc_of_last ha hv hk.ge, State.endCall_countField, hv, hk]
  rfl

/-- DEC whose read has been answered with a value, before its last field. -/
theorem execDec_moves (ha : s.answeredNow) (hok : s.pins.saOk = true) (hk : s.k < 3) :
    execDec s = .next (s.moveField (s.buf.put s.k s.pins.saRdata)
      (.read (some s.pins.saRdata))) := by
  have hv := Pins.answer_of_ok hok
  rw [execDec_of_ok ha hv hk, State.endCall_gatherField, hv]
  rfl

/-- DEC whose last read has been answered with a value. -/
theorem execDec_completes (ha : s.answeredNow) (hok : s.pins.saOk = true) (hk : s.k = 3) :
    execDec s = .next ((s.moveField { s.buf with flo := s.pins.saRdata }
      (.read (some s.pins.saRdata))).present
        (.okR (limbs s.buf.ihi s.buf.ilo s.buf.fhi s.pins.saRdata))) := by
  have hv := Pins.answer_of_ok hok
  rw [execDec_of_last ha hv hk.ge, State.endCall_gatherField, hv, hk]
  rfl

end

/-- Settles O31: the three pending edges are those of any stream command, and each answer has its
equation. -/
theorem encEdges : Obligations.EncEdges := by
  intro a b m x s
  refine ⟨decode_enc a b m x, exec_of_call_none rfl, exec_of_requested rfl, exec_of_unanswered rfl,
    fun hc hv hfail => ?_, fun hc hv hok hk => execEnc_moves ⟨hc, hv⟩ hok hk a,
    fun hc hv hok hk => ?_⟩
  · have hnone := Pins.answer_of_fail hfail
    rw [exec_enc, execEnc_of_fail ⟨hc, hv⟩ hnone, State.endCall, hnone]
    rfl
  · rw [exec_enc, execEnc_completes ⟨hc, hv⟩ hok hk, State.moveField, hk]
    rfl

/-- Settles O32: as for ENC, with the value read going into the buffer. -/
theorem decEdges : Obligations.DecEdges := by
  intro a b m x s
  refine ⟨decode_dec a b m x, exec_of_call_none rfl, exec_of_requested rfl, exec_of_unanswered rfl,
    fun hc hv hfail => ?_, fun hc hv hok hk => execDec_moves ⟨hc, hv⟩ hok hk,
    fun hc hv hok hk => ?_⟩
  · have hnone := Pins.answer_of_fail hfail
    rw [exec_dec, execDec_of_fail ⟨hc, hv⟩ hnone, State.endCall, hnone]
    rfl
  · rw [exec_dec, execDec_completes ⟨hc, hv⟩ hok hk, State.moveField, hk]
    rfl

/-! ## The run of one call -/

/-- The run of a latched `i` from `s`, at the point where its latency has passed and it has moved
`k` fields: `b` is the buffer then, `call` the state of the next call, and `ps` the coming pins. -/
def State.stage (s : State) (i : Instr) (k : Nat) (b : ReadBuf) (call : StreamCall)
    (ps : List Pins) : State :=
  { s with
    phase := .busy, k := k, buf := b, call := call, latency := 0, inputs := ps, held := none
    transfers := s.transfers ++ callsOf i k b }

/-- Pins at which the collaborator accepts a request. -/
def acceptPins : Pins := { Pins.quiet with sqReady := true }

/-- Pins at which the collaborator answers a call with `d`. -/
def answerPins (d : Limb) : Pins :=
  { Pins.quiet with saValid := true, saOk := true, saRdata := d }

theorem callPins_append (d : Limb) (ps : List Pins) :
    callPins (some d) ++ ps = Pins.quiet :: acceptPins :: answerPins d :: ps := rfl

section
variable {s : State} {i : Instr} {a : Value} {k : Nat} (b : ReadBuf) (d : Limb) (ps : List Pins)

/-- The latency of a latched command passes over quiet edges. -/
theorem run_latency (hs : s.Started s.cmd) (hh : s.held = none) (i : Instr)
    (hin : s.inputs = List.replicate s.latency Pins.quiet ++ ps) :
    run s.latency s = .next (s.stage i 0 s.buf .none ps) := by
  obtain ⟨hp, -, hk, hc⟩ := hs
  rw [run_wait hp rfl hin hh]
  simp [State.stage, callsOf_zero, hp, hk, hc, hh]

/-- One more field moved, at the edge of its answer. -/
theorem State.stage_moveField {b' : ReadBuf} {x : Transfer} {qs : List Pins} {call : StreamCall}
    (hcalls : callsOf i (k + 1) b' = callsOf i k b ++ [x]) :
    { (s.stage i k b call qs).moveField b' x with inputs := ps, held := none } =
      s.stage i (k + 1) b' .none ps := by
  simp [moveField, stage, hcalls]

theorem State.stage_answeredNow : (s.stage i k b .awaiting (answerPins d :: ps)).answeredNow :=
  ⟨rfl, rfl⟩

/-- An edge of the run at which the host does nothing. -/
theorem step_stage {call : StreamCall} {p : Pins} {t : State} (hd : decode s.cmd = .ok i)
    (hr : p.rst = false) (hv : p.cmdValid = false)
    (ht : exec i (s.stage i k b call (p :: ps)) = .next t) :
    step (s.stage i k b call (p :: ps)) = .next { t with inputs := ps, held := none } := by
  have hedge : edge (s.stage i k b call (p :: ps)) = .next t := by
    rw [edge_of_busy, busyEdge_of_ok (i := i)]
    exacts [ht, rfl, hd, hr, rfl]
  have hnext : (s.stage i k b call (p :: ps)).holdNext = none := by
    simp [State.holdNext, State.pins, State.stage, hv]
  rw [step_of_edge rfl hedge, State.endEdge, hnext]
  rfl

/-- A prompt call: the request is raised, transferred and answered, the last of which is `ht`. -/
theorem run_call (n : Nat) (hd : decode s.cmd = .ok i) (hi : i.usesStream = true) {t : State}
    (ht : exec i (s.stage i k b .awaiting (answerPins d :: ps)) = .next t) :
    run (n + 3) (s.stage i k b .none (callPins (some d) ++ ps)) =
      run n { t with inputs := ps, held := none } := by
  have hraise : step (s.stage i k b .none (Pins.quiet :: acceptPins :: answerPins d :: ps)) =
      .next (s.stage i k b .requested (acceptPins :: answerPins d :: ps)) :=
    step_stage b _ hd rfl rfl (exec_of_call_none hi rfl)
  have htransfer : step (s.stage i k b .requested (acceptPins :: answerPins d :: ps)) =
      .next (s.stage i k b .awaiting (answerPins d :: ps)) :=
    step_stage b _ hd rfl rfl (exec_of_requested hi rfl)
  rw [callPins_append, run_succ_of_step hraise, run_succ_of_step htransfer,
    run_succ_of_step (step_stage b ps hd rfl rfl ht)]

/-! ## The runs of ENC and DEC -/

theorem run_enc_field (n : Nat) (hd : decode s.cmd = .ok (.enc a)) (hk : k < 3) :
    run (n + 3) (s.stage (.enc a) k b .none (callPins (some d) ++ ps)) =
      run n (s.stage (.enc a) (k + 1) b .none ps) := by
  rw [run_call b d ps n hd rfl (execEnc_moves (State.stage_answeredNow b d ps) rfl hk a)]
  exact congrArg _ (State.stage_moveField b ps (okWrites_succ a k))

theorem run_enc_last (hd : decode s.cmd = .ok (.enc a)) :
    run 3 (s.stage (.enc a) 3 b .none (callPins (some d) ++ ps)) =
      .next ((s.stage (.enc a) 4 b .none ps).present .okNothing) := by
  rw [run_call (k := 3) b d ps 0 hd rfl
    (execEnc_completes (State.stage_answeredNow b d ps) rfl rfl a)]
  exact congrArg (fun t : State => run 0 (t.present .okNothing))
    (State.stage_moveField (i := .enc a) b ps (okWrites_succ a 3))

theorem run_dec_field (n : Nat) (hd : decode s.cmd = .ok .dec) (hk : k < 3) :
    run (n + 3) (s.stage .dec k b .none (callPins (some d) ++ ps)) =
      run n (s.stage .dec (k + 1) (b.put k d) .none ps) := by
  rw [run_call b d ps n hd rfl (execDec_moves (State.stage_answeredNow b d ps) rfl hk)]
  exact congrArg _
    (State.stage_moveField (i := .dec) b ps (okReads_put b d (Nat.lt_succ_of_lt hk)))

theorem run_dec_last (hd : decode s.cmd = .ok .dec) :
    run 3 (s.stage .dec 3 b .none (callPins (some d) ++ ps)) =
      .next ((s.stage .dec 4 (b.put 3 d) .none ps).present (.okR (b.put 3 d).value)) := by
  rw [run_call (k := 3) b d ps 0 hd rfl
    (execDec_completes (State.stage_answeredNow b d ps) rfl rfl)]
  exact congrArg (fun t : State => run 0 (t.present (.okR (b.put 3 d).value)))
    (State.stage_moveField (i := .dec) b ps (okReads_put b d (by decide : 3 < 4)))

end

/-- The reads that fill a buffer. -/
theorem okReads_value (b : ReadBuf) : okReads b.value 4 =
    [.read (some b.ihi), .read (some b.ilo), .read (some b.fhi), .read (some b.flo)] := by
  simp [okReads, List.range_succ, fieldOf, ReadBuf.value]

/-- Settles O33: the latency, three edges for each field, and the response with the last one. -/
theorem encWritesTheImage : Obligations.EncWritesTheImage := by
  intro c a s rest d0 d1 d2 d3 hd hs hh hin
  obtain rfl := hs.latched
  simp only [List.append_assoc] at hin
  refine ⟨?_, by simp [writtenBytes, image]⟩
  calc run (s.latency + 12) s
    _ = run 12 _ := run_add (run_latency _ hs hh (.enc a) hin)
    _ = run 9 _ := run_enc_field s.buf d0 _ 9 hd (by decide : 0 < 3)
    _ = run 6 _ := run_enc_field s.buf d1 _ 6 hd (by decide : 1 < 3)
    _ = run 3 _ := run_enc_field s.buf d2 _ 3 hd (by decide : 2 < 3)
    _ = .next _ := run_enc_last s.buf d3 rest hd
    _ = _ := by rw [State.stage, ← hs.noCall, ← hh]; rfl

/-- Settles O34: as for ENC; the fourth read completes the buffer, and R is what it spells. -/
theorem decReadsTheFields : Obligations.DecReadsTheFields := by
  intro c s rest d0 d1 d2 d3 hd hs hh hin
  obtain rfl := hs.latched
  simp only [List.append_assoc] at hin
  have hcalls : callsOf .dec 4 ⟨d0, d1, d2, d3⟩ = _ := okReads_value ⟨d0, d1, d2, d3⟩
  calc run (s.latency + 12) s
    _ = run 12 _ := run_add (run_latency _ hs hh .dec hin)
    _ = run 9 _ := run_dec_field s.buf d0 _ 9 hd (by decide : 0 < 3)
    _ = run 6 _ := run_dec_field { s.buf with ihi := d0 } d1 _ 6 hd (by decide : 1 < 3)
    _ = run 3 _ := run_dec_field { s.buf with ihi := d0, ilo := d1 } d2 _ 3 hd (by decide : 2 < 3)
    _ = .next _ := run_dec_last ⟨d0, d1, d2, s.buf.flo⟩ d3 rest hd
    _ = _ := by rw [State.stage, ReadBuf.put, hcalls, ← hs.noCall, ← hh]; rfl

/-! ## The round trip -/

/-- A loop of ENC that succeeds has written every field. -/
theorem writes_of_encLoop_ok {vs : List Limb} {answers : List (Option Limb)} {r : Response}
    {ts : List Transfer} (h : encLoop vs answers = some (r, ts)) (hok : r.st = 0b00) :
    ts = vs.map fun v => .write v true := by
  induction vs generalizing answers r ts with
  | nil => cases h; rfl
  | cons v vs ih =>
    cases answers with
    | nil => cases h
    | cons answer answers =>
      cases answer with
      | none => cases h; cases hok
      | some d =>
        obtain ⟨⟨r', ts'⟩, hloop, heq⟩ := Option.map_eq_some_iff.mp h
        cases heq
        rw [ih hloop hok, List.map_cons]

/-- Settles O35: the four writes are the limbs of the value, and a DEC that reads the limbs puts
them together again. -/
theorem decodeAfterEncode : Obligations.DecodeAfterEncode := by
  intro ce cd x answers rsp writes v0 v1 v2 v3 hce hcd henc hok hwrites
  rw [transaction_of_ok hce] at henc
  cases hwrites.symm.trans (writes_of_encLoop_ok henc hok)
  exact (transaction_of_ok hcd _).trans (transactionOf_dec_ok x)

end Sys2Proof.Machine
end

section
/-! PROOFS. The responses that the block presents (spec/60_exceptions.md R106, R110, R112): every one is
well formed, its cause is one of those listed for its command, and every listed cause occurs. -/

namespace Sys2Proof.Machine

/-! ## The response that a step presents -/

section
variable {s t : State}

/-- ENC presents a response at a failed call or at its last field. -/
theorem execEnc_presents {a : Value} (hp : s.phase = .busy) (h : execEnc a s = .next t)
    (htp : t.phase = .resp) : t.rsp = .error .ioWr ∨ t.rsp = .okNothing := by
  obtain ⟨-, he⟩ | ⟨-, -, he⟩ | ⟨-, -, -, he⟩ | ⟨-, -, -, he⟩ := execEnc_cases a s <;>
    cases h.symm.trans he
  case inl | inr.inr.inl => cases hp.symm.trans htp
  case inr.inl => exact .inl rfl
  case inr.inr.inr => exact .inr rfl

/-- DEC presents a response at a failed call or at its last field. -/
theorem execDec_presents (hp : s.phase = .busy) (h : execDec s = .next t)
    (htp : t.phase = .resp) : t.rsp = .error .ioRd ∨ ∃ r, t.rsp = .okR r := by
  obtain ⟨-, he⟩ | ⟨-, -, he⟩ | ⟨v, -, -, -, he⟩ | ⟨v, -, -, -, he⟩ := execDec_cases s <;>
    cases h.symm.trans he
  case inl | inr.inr.inl => cases hp.symm.trans htp
  case inr.inl => exact .inl rfl
  case inr.inr.inr => exact .inr ⟨_, rfl⟩

/-- A response that an instruction presents is its computed one, or one of the two ends of a stream
command. -/
theorem exec_presents {i : Instr} (hp : s.phase = .busy) (h : exec i s = .next t)
    (htp : t.phase = .resp) :
    computed i = some t.rsp ∨
    (∃ a, i = .enc a ∧ (t.rsp = .error .ioWr ∨ t.rsp = .okNothing)) ∨
    (i = .dec ∧ (t.rsp = .error .ioRd ∨ ∃ r, t.rsp = .okR r)) := by
  cases hi : i.usesStream
  case false =>
    obtain ⟨r, hr⟩ := computed_of_not_stream hi
    cases h.symm.trans (exec_of_computed hr s)
    exact .inl hr
  case true =>
    cases i with
    | enc a => exact .inr (.inl ⟨a, rfl, execEnc_presents hp h htp⟩)
    | dec => exact .inr (.inr ⟨rfl, execDec_presents hp h htp⟩)
    | _ => cases hi

theorem exec_presents_wellFormed {i : Instr} (hp : s.phase = .busy) (h : exec i s = .next t)
    (htp : t.phase = .resp) : t.rsp.WellFormed := by
  obtain hr | ⟨a, -, hr | hr⟩ | ⟨-, hr | ⟨r, hr⟩⟩ := exec_presents hp h htp
  · exact Response.wellFormed_of_computed hr
  · exact hr ▸ Response.wellFormed_error _
  · exact hr ▸ Response.wellFormed_okNothing
  · exact hr ▸ Response.wellFormed_error _
  · exact hr ▸ Response.wellFormed_okR r

theorem busyEdge_presents_wellFormed (hp : s.phase = .busy) (h : busyEdge s = .next t)
    (htp : t.phase = .resp) : t.rsp.WellFormed := by
  obtain ⟨left, -, he⟩ | ⟨-, i, -, he⟩ | ⟨-, e, -, he⟩ := busyEdge_cases s
  · cases h.symm.trans he
    cases hp.symm.trans htp
  · exact exec_presents_wellFormed hp (he.symm.trans h) htp
  · cases h.symm.trans he
    exact Response.wellFormed_error _

end

/-- Settles O54: the edge that presents the response is one in BUSY without reset. -/
theorem presentedResponsesAreWellFormed : Obligations.PresentedResponsesAreWellFormed := by
  intro s t hp ht htp
  obtain ⟨-, u, hu, rfl⟩ := (step_next_iff s t).mp ht
  cases hr : s.pins.rst
  case true =>
    cases hu.symm.trans (edge_of_rst hr)
    cases htp
  case false =>
    rw [edge_of_busy hr hp] at hu
    obtain ⟨hst, hcr, hzero⟩ := busyEdge_presents_wellFormed hp hu htp
    exact ⟨hst, hcr, hzero⟩

/-! ## The errors of each computation (R106) -/

section
variable {x y : Value} {w : Scalar} {c : Cause}

theorem mem_causesOf_negate (h : negate x = .error c) : c ∈ causesOf (.neg x) := by
  rw [negate_eq] at h
  split_ifs at h
  cases h
  exact List.mem_singleton_self _

/-- A magnitude in range has a negation, so NaN and the range are the only failures. -/
theorem mem_causesOf_doubleToValue (h : doubleToValue w = .error c) : c ∈ causesOf (.cvtdv w) := by
  cases hw : dbl w with
  | nan =>
    simp only [doubleToValue, hw] at h
    cases h
    exact List.mem_cons_self
  | inf neg =>
    simp only [doubleToValue, hw] at h
    cases h
    exact List.mem_cons_of_mem _ List.mem_cons_self
  | finite neg u =>
    rw [doubleToValue_of_finite hw] at h
    split_ifs at h
    cases h
    exact List.mem_cons_of_mem _ List.mem_cons_self

theorem mem_causesOf_intToValue (h : intToValue w = .error c) : c ∈ causesOf (.cvtiv w) := by
  rw [intToValue_eq] at h
  split_ifs at h
  cases h
  exact List.mem_singleton_self _

theorem mem_causesOf_valueToDouble (h : valueToDouble .correctRne x = .error c) :
    c ∈ causesOf (.cvtvd x) := by
  by_cases hx : x = rsv
  case pos =>
    rw [hx, valueToDouble_rsv] at h
    cases h
    exact List.mem_singleton_self _
  case neg =>
    rw [valueToDouble_of_ne_rsv hx] at h
    cases h

/-- With 64 bits every operand but RSV is in range (`valueToInt_w64`). -/
theorem mem_causesOf_valueToInt {round : V2iRound} {width : V2iWidth}
    (h : valueToInt round width x = .error c) :
    c ∈ causesOf (.cvtvi x) ∧ (c = .v2iRange → width = .w32) := by
  by_cases hx : x = rsv
  case pos =>
    simp only [valueToInt, if_pos hx] at h
    cases h
    exact ⟨List.mem_cons_self, nofun⟩
  case neg =>
    cases width with
    | w32 =>
      simp only [valueToInt, if_neg hx] at h
      split_ifs at h
      cases h
      exact ⟨List.mem_cons_of_mem _ List.mem_cons_self, fun _ => rfl⟩
    | w64 =>
      rw [valueToInt_w64 round hx] at h
      cases h

theorem mem_causesOf_ceiling (h : ceiling x = .error c) : c ∈ causesOf (.ceil x) := by
  rw [ceiling_eq] at h
  dsimp only at h
  split_ifs at h
  cases h
  exact List.mem_singleton_self _

/-- The failures of the engine are the checks of its closed form, in order. -/
theorem mem_causesOf_scaledAccumulate (h : scaledAccumulate x y w.toInt = .error c) :
    c ∈ causesOf (.addmult x y w) := by
  have hlo : -2 ^ 63 ≤ w.toInt := BitVec.le_toInt w
  have hhi : w.toInt ≤ 2 ^ 63 - 1 := Int.le_sub_one_of_lt (BitVec.toInt_lt (x := w))
  rw [scaledAccumulate_eq x y hlo hhi] at h
  generalize (if y.toInt < 0 then -w.toInt else w.toInt) = m' at h
  dsimp only at h
  split_ifs at h <;> cases h <;> simp [causesOf]

/-- The checks left for ADD and for SUB are the same three. -/
theorem mem_causesOf_exactResult {r : ℤ} (h : exactResult y r = .error c) :
    c ∈ causesOf (.add x y) ∧ c ∈ causesOf (.sub x y) := by
  rw [exactResult] at h
  split_ifs at h <;> cases h <;> simp [causesOf]

theorem mem_causesOf_addValues (h : addValues x y = .error c) : c ∈ causesOf (.add x y) :=
  (mem_causesOf_exactResult ((addValues_eq x y).symm.trans h)).1

theorem mem_causesOf_subValues (h : subValues x y = .error c) : c ∈ causesOf (.sub x y) :=
  (mem_causesOf_exactResult ((subValues_eq x y).symm.trans h)).2

end

/-! ## The cause of a response -/

/-- The CAUSE of `r` is one that `i` can report: 0, or a listed one (R106). -/
def MayReport (i : Instr) (r : Response) : Prop :=
  r.cause = 0 ∨
    ∃ c ∈ causesOf i, r.cause = c.code ∧ (c = .v2iRange → Config.v2iWidth = .w32)

section
variable {i : Instr}

theorem mayReport_error {c : Cause} (hc : c ∈ causesOf i)
    (hv : c = .v2iRange → Config.v2iWidth = .w32) : MayReport i (.error c) :=
  .inr ⟨c, hc, rfl, hv⟩

theorem mayReport_ofR {e : Except Cause Value} (hv : Cause.v2iRange ∉ causesOf i)
    (h : ∀ c, e = .error c → c ∈ causesOf i) : MayReport i (.ofR e) := by
  cases e with
  | ok r => exact .inl rfl
  | error c => exact mayReport_error (h c rfl) fun hc => absurd (hc ▸ h c rfl) hv

theorem mayReport_ofQ {e : Except Cause Scalar}
    (h : ∀ c, e = .error c → c ∈ causesOf i ∧ (c = .v2iRange → Config.v2iWidth = .w32)) :
    MayReport i (.ofQ e) := by
  cases e with
  | ok q => exact .inl rfl
  | error c => exact mayReport_error (h c rfl).1 (h c rfl).2

theorem mayReport_of_computed {r : Response} (h : computed i = some r) : MayReport i r := by
  cases i <;> simp only [computed, Option.some.injEq, reduceCtorEq] at h <;> subst h
  case neg => exact mayReport_ofR (by simp [causesOf]) fun _ => mem_causesOf_negate
  case cmp => exact .inl rfl
  case cvtdv => exact mayReport_ofR (by simp [causesOf]) fun _ => mem_causesOf_doubleToValue
  case cvtiv => exact mayReport_ofR (by simp [causesOf]) fun _ => mem_causesOf_intToValue
  case cvtvd =>
    refine mayReport_ofQ fun c hc => ⟨mem_causesOf_valueToDouble hc, fun hv => ?_⟩
    have hmem := mem_causesOf_valueToDouble hc
    simp [hv, causesOf] at hmem
  case cvtvi => exact mayReport_ofQ fun _ => mem_causesOf_valueToInt
  case ceil => exact mayReport_ofR (by simp [causesOf]) fun _ => mem_causesOf_ceiling
  case addmult => exact mayReport_ofR (by simp [causesOf]) fun _ => mem_causesOf_scaledAccumulate
  case add => exact mayReport_ofR (by simp [causesOf]) fun _ => mem_causesOf_addValues
  case sub => exact mayReport_ofR (by simp [causesOf]) fun _ => mem_causesOf_subValues

end

/-- Settles O55: a computed response reports the failures of its computation, and ENC and DEC that of a
failed call. -/
theorem commandsReportOnlyTheirCauses : Obligations.CommandsReportOnlyTheirCauses := by
  intro i s t hp h htp
  change MayReport i t.rsp
  obtain hr | ⟨a, rfl, hr | hr⟩ | ⟨rfl, hr | ⟨r, hr⟩⟩ := exec_presents hp h htp
  · exact mayReport_of_computed hr
  · exact hr ▸ mayReport_error (List.mem_singleton_self _) nofun
  · exact hr ▸ .inl rfl
  · exact hr ▸ mayReport_error (List.mem_singleton_self _) nofun
  · exact hr ▸ .inl rfl

/-! ## Every listed cause occurs -/

/-- A started stream command whose first call has been transferred, at the edge of its `fail`. -/
def failingCall (i : Instr) : State :=
  { State.reset with
    phase := .busy, cmd := encode i, call := .awaiting
    inputs := [{ Pins.quiet with saValid := true }] }

section
variable {i : Instr}

theorem decode_failingCall : decode (failingCall i).cmd = .ok i := decode_encode i

theorem failingCall_answeredNow : (failingCall i).answeredNow := ⟨rfl, rfl⟩

/-- It is an ordinary state of the controller: the command has moved no field yet. -/
theorem failingCall_inv (hi : i.usesStream = true) : (failingCall i).Inv where
  rspWellFormed := Response.wellFormed_none
  responsesWellFormed := nofun
  rspZero _ := rfl
  kBound := Nat.zero_le 4
  kBusy _ := Nat.zero_lt_succ 3
  callBusy _ := ⟨rfl, (State.latchedUsesStream_of_ok decode_failingCall).trans hi⟩
  waiting _ hl := absurd rfl hl
  kStream _ _ := rfl
  progress _ := ⟨[], (State.callsDone_of_k_zero rfl).symm⟩

theorem step_failingCall {t : State} (h : exec i (failingCall i) = .next t) :
    step (failingCall i) = .next ((failingCall i).endEdge t) :=
  step_of_edge rfl ((edge_of_busy rfl rfl).trans ((busyEdge_of_ok rfl decode_failingCall).trans h))

end

theorem addmult_reports {c : Cause} (h : c ∈ causesOf (.addmult 0 0 0)) :
    ∃ a b, ∃ m : Scalar, scaledAccumulate a b m.toInt = .error c := by
  simp only [causesOf, List.mem_cons, List.not_mem_nil, or_false] at h
  obtain rfl | rfl | rfl | rfl | rfl | rfl := h
  · exact ⟨valueZero, rsv, 0, by decide⟩
  · exact ⟨valueZero, valueOne, 0x8000000000000000, by decide⟩
  · exact ⟨valueZero, valueOne, 0x7fffffffffffffff, by decide⟩
  · exact ⟨valueMax, valueOne, 1, by decide⟩
  · exact ⟨valueZero, limbs 1 0 0 0, 0x100000000, by decide⟩
  · exact ⟨valueMin, 1, -1, by decide⟩

theorem add_reports {c : Cause} (h : c ∈ causesOf (.add 0 0)) :
    ∃ a b, addValues a b = .error c := by
  simp only [causesOf, List.mem_cons, List.not_mem_nil, or_false] at h
  obtain rfl | rfl | rfl := h
  · exact ⟨valueZero, rsv, by decide⟩
  · exact ⟨valueMax, valueOne, by decide⟩
  · exact ⟨valueMin, -1, by decide⟩

theorem sub_reports {c : Cause} (h : c ∈ causesOf (.sub 0 0)) :
    ∃ a b, subValues a b = .error c := by
  simp only [causesOf, List.mem_cons, List.not_mem_nil, or_false] at h
  obtain rfl | rfl | rfl := h
  · exact ⟨valueZero, rsv, by decide⟩
  · exact ⟨valueMin, valueMax, by decide⟩
  · exact ⟨valueMin, 1, by decide⟩

/-- Settles O56: one operand for each cause, and a failing first call for ENC and DEC. -/
theorem everyListedCauseOccurs : Obligations.EveryListedCauseOccurs := by
  refine ⟨⟨rsv, negate_rsv⟩, ⟨0x7FF8000000000000, by decide +kernel⟩,
    ⟨0x7FF0000000000000, by decide +kernel⟩, ⟨0x8000000000000000, by decide⟩,
    ⟨rsv, valueToDouble_rsv _⟩, fun round width => ⟨rsv, if_pos rfl⟩,
    fun round => ⟨valueMax, by cases round <;> decide⟩, ⟨valueMax, by decide⟩,
    fun _ => addmult_reports, fun _ => add_reports, fun _ => sub_reports, fun a => ?_, ?_⟩
  · exact ⟨failingCall (.enc a), _, failingCall_inv rfl, rfl, decode_failingCall,
      step_failingCall (execEnc_of_fail failingCall_answeredNow rfl a), rfl, rfl⟩
  · exact ⟨failingCall .dec, _, failingCall_inv rfl, rfl, decode_failingCall,
      step_failingCall (execDec_of_fail failingCall_answeredNow rfl), rfl, rfl⟩

end Sys2Proof.Machine
end

section
/-! PROOFS. One edge in each phase: reset, acceptance, the running of a command and the taking of its
response, the host's duty to hold its command, and the waits of a stream command
(spec/70_reset_and_hazards.md R119 to R124, R127 to R130). -/

namespace Sys2Proof.Machine

/-! ## The host's duty -/

section
variable {s t : State}

/-- The duty is broken exactly when a held command is not presented unchanged (R129). -/
theorem State.holdBroken_iff (s : State) : s.holdBroken = true ↔
    ∃ c, s.held = some c ∧ ¬(s.pins.cmdValid = true ∧ s.pins.cmd = c) := by
  unfold holdBroken
  cases s.held <;> simp [imp_iff_not_or]

theorem step_refused_iff (s : State) (r : Refusal) :
    step s = .refused r ↔ r = .commandNotHeld ∧ s.holdBroken = true := by
  cases hb : s.holdBroken
  case true => simp [step_of_holdBroken hb, eq_comm]
  case false =>
    obtain ⟨u, hu⟩ := edge_next s
    simp [step_of_edge hb hu]

theorem held_of_step (h : step s = .next t) : t.held = s.holdNext := by
  obtain ⟨-, u, -, rfl⟩ := (step_next_iff s t).mp h
  rfl

end

/-- Settles O48: a step is refused when the duty is broken, and the next duty is that of the edge. -/
theorem stepRefusesOnlyAnUnheldCommand : Obligations.StepRefusesOnlyAnUnheldCommand := by
  constructor
  · intro s r
    rw [step_refused_iff, s.holdBroken_iff]
  · intro s t c h
    rw [held_of_step h, s.holdNext_eq_some_iff]

/-! ## Reset, acceptance, response and the latched command -/

theorem State.cmdReady_iff (s : State) :
    s.cmdReady = true ↔ s.phase = .idle ∧ s.pins.rst = false := by
  simp [cmdReady]

theorem State.holdNext_of_cmdReady {s : State} (h : s.cmdReady = true) : s.holdNext = none := by
  simp [holdNext, h]

/-- Settles O43: the edge is the reset edge, whatever the other pins are. -/
theorem resetHasPriority : Obligations.ResetHasPriority := fun s hr hh =>
  ⟨by simp [State.cmdReady, hr], _, step_of_edge hh (edge_of_rst hr),
    rfl, rfl, rfl, rfl, rfl, rfl, rfl, rfl, rfl⟩

section
variable {s : State} (hr : s.pins.rst = false)
include hr

theorem edge_of_accept (hp : s.phase = .idle) (hv : s.pins.cmdValid = true) :
    edge s = .next (s.accept s.pins.cmd) := by
  rw [edge_of_idle hr hp, if_pos hv]

theorem edge_of_no_command (hp : s.phase = .idle) (hv : s.pins.cmdValid = false) :
    edge s = .next s := by
  simp [edge_of_idle hr hp, hv]

theorem edge_of_take (hp : s.phase = .resp) (hready : s.pins.rspReady = true) :
    edge s = .next s.take := by
  rw [edge_of_resp hr hp, if_pos hready]

theorem edge_of_not_taken (hp : s.phase = .resp) (hready : s.pins.rspReady = false) :
    edge s = .next s := by
  simp [edge_of_resp hr hp, hready]

end

/-- Settles O44: a ready block is IDLE without reset, and what it accepts need not be held. -/
theorem commandAcceptance : Obligations.CommandAcceptance := by
  refine fun s => ⟨s.cmdReady_iff, fun hready hh hv => ?_, fun hready hh hv => ?_⟩ <;>
    obtain ⟨hp, hr⟩ := s.cmdReady_iff.mp hready
  · exact ⟨_, step_of_edge hh (edge_of_accept hr hp hv), rfl, rfl, rfl, rfl, rfl, rfl, rfl, rfl, rfl,
      State.holdNext_of_cmdReady hready⟩
  · rw [step_of_edge hh (edge_of_no_command hr hp hv), State.endEdge,
      State.holdNext_of_cmdReady hready]

/-- Settles O45: the edge takes the presented response or leaves it. -/
theorem responseHandshake : Obligations.ResponseHandshake := fun s hp hr hh =>
  ⟨by simp [State.cmdReady, hp], by simp [State.rspValid, hp],
    fun hready => ⟨_, step_of_edge hh (edge_of_take hr hp hready), rfl, rfl, rfl, rfl, rfl⟩,
    fun hready => step_of_edge hh (edge_of_not_taken hr hp hready)⟩

/-- A step at which a latched instruction runs ends the edge of its execution. -/
theorem step_of_exec {s t : State} {i : Instr} (hp : s.phase = .busy) (hl : s.latency = 0)
    (hr : s.pins.rst = false) (hh : s.holdBroken = false) (hd : decode s.cmd = .ok i)
    (h : exec i s = .next t) : step s = .next (s.endEdge t) :=
  step_of_edge hh ((edge_of_busy hr hp).trans ((busyEdge_of_ok hl hd).trans h))

/-- Settles O40: an instruction always answers a next state, and the step ends its edge. -/
theorem stepRunsTheLatchedCommand : Obligations.StepRunsTheLatchedCommand := by
  intro s i hp hl hr hh hd
  obtain ⟨t, ht⟩ := exec_next i s
  rw [step_of_exec hp hl hr hh hd ht, ht]
  rfl

/-! ## Waits -/

theorem State.exists_decode_of_latchedUsesStream {s : State} (h : s.latchedUsesStream = true) :
    ∃ i, decode s.cmd = .ok i ∧ i.usesStream = true := by
  cases hd : decode s.cmd with
  | ok i => exact ⟨i, rfl, (latchedUsesStream_of_ok hd).symm.trans h⟩
  | error e => cases (latchedUsesStream_of_error hd).symm.trans h

/-- Settles O49: neither wait moves the call on, and the edge counts nothing. -/
theorem waitsForTheCollaborator : Obligations.WaitsForTheCollaborator := by
  intro s hp hl hs hr hh hwait
  obtain ⟨i, hd, hi⟩ := State.exists_decode_of_latchedUsesStream hs
  have hexec : exec i s = .next s := by
    obtain ⟨hc, hv⟩ | ⟨hc, hq⟩ := hwait
    · exact exec_of_unanswered hi hc hv
    · simp [exec_of_requested hi hc, hq]
  exact step_of_exec hp hl hr hh hd hexec

theorem latMinusOne_le_waitEdges {s : State} (hs : s.latchedUsesStream = false) :
    Config.latMinusOne ≤ Config.waitEdges s.cmd := by
  cases hd : decode s.cmd with
  | ok i =>
    rw [waitEdges_of_computed hd ((State.latchedUsesStream_of_ok hd).symm.trans hs)]
    exact Nat.le_add_right _ _
  | error e =>
    simp only [Config.waitEdges, hd]
    exact Nat.le_add_right _ _

/-- A run that is no longer than the latency left stays in BUSY. -/
theorem busy_of_run_le_latency {n : Nat} {s t : State} (hp : s.phase = .busy) (hr : s.NoReset)
    (hn : n ≤ s.latency) (h : run n s = .next t) : t.phase = .busy := by
  induction n generalizing s with
  | zero => cases h; exact hp
  | succ n ih =>
    obtain ⟨u, hu, hrun⟩ := run_succ_next h
    obtain ⟨left, hl⟩ : ∃ left, s.latency = left + 1 := ⟨s.latency - 1, by omega⟩
    have hnoReset := hr.step hu
    obtain ⟨-, v, hv, rfl⟩ := (step_next_iff s u).mp hu
    cases hv.symm.trans ((edge_of_busy hr.pins_rst hp).trans (busyEdge_of_wait hl))
    have hleft : n ≤ left := by omega
    exact ih (s := s.endEdge (s.waitEdge left)) hp hnoReset hleft hrun

/-- Settles O51: a run that leaves BUSY is longer than the latency, which is `LAT - 1` or more. -/
theorem responseNotBeforeLat : Obligations.ResponseNotBeforeLat := by
  refine ⟨Nat.le_add_left 1 _, fun n s t hp hs hl hr h hne => ?_⟩
  have hlong : ¬n ≤ s.latency := fun hn => hne (busy_of_run_le_latency hp hr hn h)
  have hlat := latMinusOne_le_waitEdges hs
  rw [Config.lat]
  omega

/-! ## The run's result -/

section
variable {s t : State}

theorem exec_transfers {i : Instr} (h : exec i s = .next t) :
    t.transfers = s.transfers ∨
    (i.usesStream = true ∧ s.answeredNow ∧ ∃ x, t.transfers = s.transfers ++ [x]) := by
  obtain ⟨-, r, rfl⟩ | ⟨-, -, rfl⟩ | ⟨hi, ha, p, r, rfl⟩ | ⟨hi, ha, b, x, -, rfl | ⟨r, rfl⟩⟩ :=
    exec_cases h
  · exact .inl rfl
  · exact .inl rfl
  · exact .inr ⟨hi, ha, _, rfl⟩
  · exact .inr ⟨hi, ha, x, rfl⟩
  · exact .inr ⟨hi, ha, x, rfl⟩

theorem busyEdge_transfers (h : busyEdge s = .next t) :
    t.transfers = s.transfers ∨
    (s.latchedUsesStream = true ∧ s.answeredNow ∧ ∃ x, t.transfers = s.transfers ++ [x]) := by
  obtain ⟨left, -, he⟩ | ⟨-, i, hd, he⟩ | ⟨-, e, -, he⟩ := busyEdge_cases s
  · cases h.symm.trans he
    exact .inl rfl
  · rw [State.latchedUsesStream_of_ok hd]
    exact exec_transfers (he.symm.trans h)
  · cases h.symm.trans he
    exact .inl rfl

end

/-- Settles O39: of the edges only an answer in BUSY adds a transfer, and only the taking of a response
adds that response. -/
theorem runResultGrowsByHandshakes : Obligations.RunResultGrowsByHandshakes := by
  intro s t ht
  obtain ⟨-, u, hu, rfl⟩ := (step_next_iff s t).mp ht
  obtain ⟨-, he⟩ | ⟨-, -, -, he⟩ | ⟨-, -, -, he⟩ | ⟨hr, hp, he⟩ | ⟨hr, hp, hready, he⟩ |
    ⟨-, -, -, he⟩ := edge_cases s <;> rw [he] at hu
  case inr.inr.inr.inl =>
    refine ⟨?_, .inl (busyEdge_responses (t := u) hu)⟩
    obtain hsame | ⟨hs, ⟨hc, hv⟩, hx⟩ := busyEdge_transfers hu
    · exact .inl hsame
    · exact .inr ⟨hx, hp, hs, hc, hv, hr⟩
  case inr.inr.inr.inr.inl =>
    cases hu
    exact ⟨.inl rfl, .inr ⟨rfl, hp, rfl, hready, hr⟩⟩
  all_goals
    cases hu
    exact ⟨.inl rfl, .inl rfl⟩

/-! ## Answers that no call awaits -/

/-- `s` with another answer at its coming edge. -/
def State.withAnswer (s : State) (v ok : Bool) (d : Limb) : State :=
  { s with
    inputs := { s.pins with saValid := v, saOk := ok, saRdata := d } :: s.inputs.tail }

section
variable {s t : State} (v ok : Bool) (d : Limb)

/-- An instruction reads the answer pins only when its call awaits an answer. -/
theorem exec_withAnswer {i : Instr} (hc : s.call ≠ .awaiting) (h : exec i s = .next t) :
    exec i (s.withAnswer v ok d) = .next (t.withAnswer v ok d) := by
  cases hi : i.usesStream
  case false =>
    obtain ⟨r, hr⟩ := computed_of_not_stream hi
    cases h.symm.trans (exec_of_computed hr s)
    exact exec_of_computed hr _
  case true =>
    cases h.symm.trans (exec_of_pending hi fun ha => hc ha.1)
    exact exec_of_pending (s := s.withAnswer v ok d) hi fun ha => hc ha.1

theorem busyEdge_withAnswer (hc : s.call ≠ .awaiting) (h : busyEdge s = .next t) :
    busyEdge (s.withAnswer v ok d) = .next (t.withAnswer v ok d) := by
  obtain ⟨left, hl, he⟩ | ⟨hl, i, hd, he⟩ | ⟨hl, e, hd, he⟩ := busyEdge_cases s
  · cases h.symm.trans he
    exact busyEdge_of_wait (s := s.withAnswer v ok d) hl
  · exact (busyEdge_of_ok (s := s.withAnswer v ok d) hl hd).trans
      (exec_withAnswer v ok d hc (he.symm.trans h))
  · cases h.symm.trans he
    exact busyEdge_of_error (s := s.withAnswer v ok d) hl hd

theorem edge_withAnswer (hc : s.call ≠ .awaiting) (h : edge s = .next t) :
    edge (s.withAnswer v ok d) = .next (t.withAnswer v ok d) := by
  obtain ⟨hr, he⟩ | ⟨hr, hp, hv, he⟩ | ⟨hr, hp, hv, he⟩ | ⟨hr, hp, he⟩ | ⟨hr, hp, hready, he⟩ |
    ⟨hr, hp, hready, he⟩ := edge_cases s
  case inr.inr.inr.inl =>
    exact (edge_of_busy (s := s.withAnswer v ok d) hr hp).trans
      (busyEdge_withAnswer v ok d hc (he.symm.trans h))
  all_goals cases h.symm.trans he
  · exact edge_of_rst (s := s.withAnswer v ok d) hr
  · exact edge_of_accept (s := s.withAnswer v ok d) hr hp hv
  · exact edge_of_no_command (s := s.withAnswer v ok d) hr hp hv
  · exact edge_of_take (s := s.withAnswer v ok d) hr hp hready
  · exact edge_of_not_taken (s := s.withAnswer v ok d) hr hp hready

/-- The hold duty does not read the answer pins either. -/
theorem step_withAnswer (hc : s.call ≠ .awaiting) : step (s.withAnswer v ok d) = step s := by
  cases hb : s.holdBroken
  case true =>
    rw [step_of_holdBroken hb]
    exact step_of_holdBroken (s := s.withAnswer v ok d) hb
  case false =>
    obtain ⟨t, ht⟩ := edge_next s
    rw [step_of_edge hb ht]
    exact (step_of_edge (s := s.withAnswer v ok d) hb (edge_withAnswer v ok d hc ht)).trans rfl

end

/-- Settles O47: the two states differ in the answer at their coming edge alone. -/
theorem unexpectedAnswerIsIgnored : Obligations.UnexpectedAnswerIsIgnored :=
  fun s p rest v ok d hc => step_withAnswer (s := { s with inputs := p :: rest }) v ok d hc

end Sys2Proof.Machine
end
